-- ==== Sys2Proof/Word.lean ====
section
/-!
DEFINITION. The word types of the engine (spec 00_scope R6, R8): every value is an unsigned bit vector of a stated width, bit 0 least significant.
-/

namespace Sys2Proof

/-- A 64-bit word: the accumulator, a table entry, the polynomial (00_scope R6, `W`). -/
abbrev Word := BitVec 64

/-- One input byte, and the index of an entry inside a table row (00_scope R6, `BYTE`, `ENTRIES`). -/
abbrev Byte := BitVec 8

/-- A byte address of the data memory as a command carries it (30_encoding R62). -/
abbrev Addr := BitVec 64

/-- The length operand of an update, in bytes (30_encoding R62, R65). -/
abbrev Len := BitVec 64

/-- One command at the command port: 256 bits, format `C` (30_encoding R62). -/
abbrev Command := BitVec 256

end Sys2Proof
end

