-- ==== Sys2Proof/Syntax.lean ====
section
/-!
DEFINITION. The whole operation set of the engine (30_encoding R61) and the reasons a command is reserved (R68).
-/

namespace Sys2Proof

/-- The three operations, the abstract syntax of 30_encoding R61; one constructor per row of the opcode table. -/
inductive Instr where
  /-- `INIT`: one-time table construction (40_table_builder R84). -/
  | init
  /-- `UPDATE1 crc, addr, len`: fold `len` bytes one at a time (41_updater_slice1 R101). -/
  | update1 (crc : Word) (addr : Addr) (len : Len)
  /-- `UPDATE8 crc, addr, len`: fold `len` bytes, eight at a time where alignment allows (42_updater_slice8 R114). -/
  | update8 (crc : Word) (addr : Addr) (len : Len)
deriving DecidableEq, Repr

/-- Why a command is reserved (30_encoding R68). The spec has the one refusal `reserved_command`; DESIGN CHOICE, safe
(log entry 13): the constructors name which of its conditions holds. -/
inductive Reserved where
  /-- The op word `cmd[255:192]` is not 0, 1 or 2. -/
  | opWord
  /-- An update whose `addr` has a 1 at or above bit `AW`. -/
  | addrWidth
  /-- An update whose `len` has a 1 at or above bit `LENW`. -/
  | lenWidth
deriving DecidableEq, Repr

end Sys2Proof
end

