-- ==== Sys2Proof/Machine/State.lean ====
section
/-!
DEFINITION. The state of the machine: the engine's own pair (`INIT_FLAG`, `TABLE`) of 10_state R20, and round it what the host and the platform hold (the data memory, the admission of reads, the host's coming moves) and what passed at the ports (reads, responses, refusals, a read that is never answered). Plain data throughout.
-/

namespace Sys2Proof.Machine

/-- One table row: 256 entries, each a 64-bit word or no value yet (10_state R22, R34). -/
abbrev Row := Vector (Option Word) 256

/-- `TABLE`: 8 rows (10_state R20, R22). -/
abbrev Table := Vector Row 8

/-- `DMEM`: address and byte, addresses strictly rising, no entry equal to what an unlisted address reads as. -/
abbrev Memory := List Host.Cell

/-- The widths of a data-memory read (20_memory R47). -/
inductive ReadWidth where
  /-- `MemRead(a, 1)` (20_memory R42). -/
  | one
  /-- `MemRead(a, 8)` (20_memory R43). -/
  | eight
deriving DecidableEq, Repr

/-- One request on the data-memory port: its address and its width (20_memory R47, R49). -/
structure DmemRead where
  addr : Nat
  width : ReadWidth
deriving DecidableEq, Repr

/-- Requests the platform does not admit: those of width `width` at an address from `first` to `last`, both
included (20_memory R49). -/
structure DeniedReads where
  width : ReadWidth
  first : Nat
  last : Nat
deriving DecidableEq, Repr

/-- What an executed command answers (30_encoding R64). -/
inductive Response where
  /-- `respond()`, the empty acknowledgement of `INIT`. -/
  | ack
  /-- `respond(crc)`, the new accumulator. -/
  | value (crc : Word)
deriving DecidableEq, Repr

/-- What passes at the engine's ports: a data-memory read is issued, or a response is sent. -/
inductive PortEvent where
  | read (r : DmemRead)
  | respond (r : Response)
deriving DecidableEq, Repr

/-- Why a command was refused (60_exceptions R134). -/
inductive RefuseReason where
  /-- `refuse(reserved_command)` (30_encoding R68). -/
  | reservedCommand (why : Reserved)
  /-- `refuse(range)` (20_memory R58). -/
  | range
deriving DecidableEq, Repr

/-- One move of the host (60_exceptions R142). -/
inductive HostInput where
  /-- A 256-bit command handed to the command port (20_memory R51, 30_encoding R70). -/
  | command (w : Command)
  /-- The reset event, between operations (70_reset_and_hazards R150, R151). -/
  | reset
  /-- The host fills one byte of its data memory, between operations (20_memory R41, R57). -/
  | write (addr : Addr) (b : Byte)
deriving DecidableEq, Repr

/-- The whole state. -/
structure State where
  /-- `INIT_FLAG`, one bit (10_state R25). -/
  initFlag : Bool
  /-- `TABLE` (10_state R22). -/
  table : Table
  /-- `DMEM`, owned by the host (20_memory R41). -/
  dmem : Memory
  /-- The data-memory requests the platform does not admit (20_memory R49); no step changes it (log entry 3). -/
  denied : List DeniedReads
  /-- What the host will do, earliest first (20_memory R51; log entry 4). -/
  inputs : List HostInput
  /-- What passed at the ports, earliest first (log entry 5). -/
  trace : List PortEvent
  /-- The mark of 60_exceptions R134: the reasons of the commands refused so far, earliest first (log entry 6). -/
  refusals : List RefuseReason
  /-- The read that a stuck update waits for, if one is stuck (60_exceptions R135; log entry 7). -/
  stalled : Option DmemRead
deriving DecidableEq, Repr

/-- Why the machine stops. The spec has no exception (60_exceptions R131). -/
inductive Fault where
  /-- Raised by `readEntry` when a table entry that holds no value is read (93_implementation_defined U1). Safe: the
  machine stops. No state that meets `TableSound` reaches it. -/
  | tableEntryUnbuilt (row : Fin 8) (entry : Byte)
deriving DecidableEq, Repr

/-- Why the model gives an operation no meaning. A refused COMMAND is none of these: it is a next state that carries
the mark of 60_exceptions R134. -/
inductive Refusal where
  /-- Raised by an arm of `exec` whose operation is not modelled; no arm is. Safe: the machine stops. -/
  | notModelled (mnemonic : String)
deriving DecidableEq, Repr

/-- `TABLE` after reset: no entry holds a value (10_state R34). -/
def unbuiltTable : Table := Vector.replicate 8 (Vector.replicate 256 none)

/-- The machine right after reset (10_state R34, 70_reset_and_hazards R150): the flag clear, no table entry with a
value. The rest is the model's own and starts empty (log entries 1, 3 to 7). -/
def State.reset : State where
  initFlag := false
  table := unbuiltTable
  dmem := []
  denied := []
  inputs := []
  trace := []
  refusals := []
  stalled := none

end Sys2Proof.Machine
end

