-- ==== Sys2Proof/Machine/Flags.lean ====
section
/-!
DEFINITION. The only flag of the engine, `INIT_FLAG` (10_state R25). There are no condition codes (R30): no operation has any other flag effect.
-/

namespace Sys2Proof.Machine

/-- The guard at the head of `ensure_built`: `INIT_FLAG = 0` (40_table_builder R84). -/
def initFlagClear (s : State) : Bool := !s.initFlag

/-- `INIT_FLAG <- 1`, the only write of the flag besides reset (10_state R25). -/
def setInitFlag (s : State) : State := { s with initFlag := true }

end Sys2Proof.Machine
end

