-- ==== Sys2Proof/Config.lean ====
section
/-!
DEFINITION. The parameters the source leaves open, at the value the spec takes for each (00_scope R7), and what a data-memory byte that nothing has written reads as. The admission predicate, the other open parameter, is plain data in `State.denied`.
-/

namespace Sys2Proof

/-- `AW`, the width of a data-memory byte address (00_scope R7: value taken 64). -/
def Config.aw : Nat := 64

/-- `LENW`, the width of the length operand (00_scope R7: value taken 64). -/
def Config.lenw : Nat := 64

/-- DESIGN CHOICE, unsafe (log entry 1): the byte that an address of DMEM not listed in the state reads as. The spec
gives DMEM no contents of its own: the host owns and fills it (20_memory R41). -/
def Config.unlistedByte : Byte := 0

end Sys2Proof
end

