-- ==== Sys2Proof/WellFormed.lean ====
section
/-!
DEFINITION. When an operation has an encoding: the operands of an update fit the parameter widths (30_encoding R62, R68). The range precondition of 20_memory R58 is no part of it: it is a check of the operation itself.
-/

namespace Sys2Proof

/-- The operands fit the widths `aw` and `lenw` (30_encoding R62: the bits above them must be 0). -/
def operandsFit (aw lenw : Nat) (addr : Addr) (len : Len) : Bool :=
  decide (addr.toNat < 2 ^ aw) && decide (len.toNat < 2 ^ lenw)

/-- Well-formedness for any choice of the two open widths (00_scope R7). -/
def wellFormedAt (aw lenw : Nat) : Instr → Bool
  | .init => true
  | .update1 _ addr len => operandsFit aw lenw addr len
  | .update8 _ addr len => operandsFit aw lenw addr len

/-- Well-formedness at the widths the spec takes. -/
def wellFormed (i : Instr) : Bool := wellFormedAt Config.aw Config.lenw i

end Sys2Proof
end

