-- ==== Sys2Proof/Decode.lean ====
section
/-!
DEFINITION. Format `C` (30_encoding R62, R63): the decoder, total on every 256-bit word and rejecting a reserved one by name (R68, R73), then the encoder.
-/

namespace Sys2Proof

/-- The op word `cmd[255:192]`, the fields `zero` and `op` of 30_encoding R62 together (R63). -/
def cmdOpWord (w : Command) : Word := w.extractLsb' 192 64

/-- `cmd.crc`, bits `[191:128]` (30_encoding R62, R65). -/
def cmdCrc (w : Command) : Word := w.extractLsb' 128 64

/-- `cmd.addr`, bits `[127:64]` (30_encoding R62, R65). -/
def cmdAddr (w : Command) : Addr := w.extractLsb' 64 64

/-- `cmd.len`, bits `[63:0]` (30_encoding R62, R65). -/
def cmdLen (w : Command) : Len := w.extractLsb' 0 64

/-- The width checks of 30_encoding R68, then the operation. DESIGN CHOICE, safe (log entry 13): `addr` is named first
where both are too wide. -/
def checkWidths (aw lenw : Nat) (addr : Addr) (len : Len) (i : Instr) : Except Reserved Instr :=
  if 2 ^ aw ≤ addr.toNat then .error .addrWidth
  else if 2 ^ lenw ≤ len.toNat then .error .lenWidth
  else .ok i

/-- Decoding for any choice of the two open widths, in the order of 30_encoding R73: the op word, then the width
checks of an update. `INIT` ignores the other 192 bits (R69). -/
def decodeAt (aw lenw : Nat) (w : Command) : Except Reserved Instr :=
  if cmdOpWord w = 0 then .ok .init
  else if cmdOpWord w = 1 then
    checkWidths aw lenw (cmdAddr w) (cmdLen w) (.update1 (cmdCrc w) (cmdAddr w) (cmdLen w))
  else if cmdOpWord w = 2 then
    checkWidths aw lenw (cmdAddr w) (cmdLen w) (.update8 (cmdCrc w) (cmdAddr w) (cmdLen w))
  else .error .opWord

/-- Decoding at the widths the spec takes (00_scope R7). -/
def decode (w : Command) : Except Reserved Instr := decodeAt Config.aw Config.lenw w

/-- Four 64-bit words laid out as format `C` (30_encoding R62): op word at the top, then `crc`, `addr`, `len`. -/
def formatC (op crc : Word) (addr : Addr) (len : Len) : Command := op ++ crc ++ addr ++ len

/-- The command of an operation (30_encoding R62, R63). DESIGN CHOICE, safe (log entry 11): the ignored fields of
`INIT` are written as zeros. -/
def encode : Instr → Command
  | .init => formatC 0 0 0 0
  | .update1 crc addr len => formatC 1 crc addr len
  | .update8 crc addr len => formatC 2 crc addr len

/-- The command whose bits, numbered as the opcode table numbers them, are the low `nbits` bits of `w`; every bit
above is 0 (log entry 12). -/
def tableCommand (nbits w : Nat) : Command := BitVec.ofNat 256 (w % 2 ^ nbits)

/-- What the decoder reads from an opcode-table word. -/
def decodeTableWord (nbits w : Nat) : Option Instr :=
  match decode (tableCommand nbits w) with
  | .ok i => some i
  | .error _ => none

end Sys2Proof
end

