-- ==== Sys2Proof/Machine/Operands.lean ====
section
/-!
DEFINITION. Operand assembly: the table indices of a byte fold and of a word fold (30_encoding R66, R67), and the range precondition on an update's operands (20_memory R58).
-/

namespace Sys2Proof.Machine

/-- `v and 0xFF` as a byte: `v[7:0]` (00_scope R9). -/
def lowByte (v : Word) : Byte := v.setWidth 8

/-- `idx1(crc, b)`, the index of a byte fold in row 0 (30_encoding R66). -/
def idx1 (crc : Word) (b : Byte) : Byte := lowByte (crc ^^^ b.setWidth 64)

/-- `lane(m, i) = (m >> 8i) and 0xFF` (30_encoding R67). -/
def lane (m : Word) (i : Fin 8) : Byte := lowByte (m >>> (8 * i.val))

/-- The row that lane `i` indexes: row `7 - i` (30_encoding R67). -/
def laneRow (i : Fin 8) : Fin 8 := 7 - i

/-- The range precondition `addr + len <= 2^AW`, computed without wrap-around (20_memory R58). -/
def inRange (aw : Nat) (addr : Addr) (len : Len) : Bool := decide (addr.toNat + len.toNat ≤ 2 ^ aw)

end Sys2Proof.Machine
end

