-- ==== Sys2Proof/Machine/Ops.lean ====
section
/-!
DEFINITION. The named operations over the state: the data memory and its read primitives (20_memory R42, R43), table access (R40), admission (R49), responses (30_encoding R64), refusal and the stuck update (60_exceptions R134, R135), the host's moves (R142), the working values of one operation (10_state R32) and its loops. There is no exception entry and no return from one: the spec has no trap mechanism (60_exceptions R131, R138).
-/

namespace Sys2Proof.Machine

/-! ### The data memory -/

/-- `DMEM[a]`, which is `MemRead(a, 1)` (20_memory R42). -/
def memRead1 : Memory → Nat → Byte
  | [], _ => Config.unlistedByte
  | (k, b) :: rest, a => if k = a then b else memRead1 rest a

/-- `MemRead(a, 8)`: the eight bytes at `a .. a+7` assembled little-endian (20_memory R43). -/
def memRead8 (m : Memory) (a : Nat) : Word :=
  memRead1 m (a + 7) ++ memRead1 m (a + 6) ++ memRead1 m (a + 5) ++ memRead1 m (a + 4) ++
    memRead1 m (a + 3) ++ memRead1 m (a + 2) ++ memRead1 m (a + 1) ++ memRead1 m a

/-- A cell put before a memory, unless its byte is what an unlisted address reads as. -/
def memCons (a : Nat) (b : Byte) (rest : Memory) : Memory :=
  if b = Config.unlistedByte then rest else (a, b) :: rest

/-- The host's write of one byte, keeping the canonical form. The engine never writes DMEM (20_memory R41). -/
def memWrite : Memory → Nat → Byte → Memory
  | [], a, b => memCons a b []
  | (k, v) :: rest, a, b =>
    if a < k then memCons a b ((k, v) :: rest)
    else if a = k then memCons a b rest
    else (k, v) :: memWrite rest a b

/-- The canonical form: addresses strictly rising and inside the `2^AW` bytes of DMEM (20_memory R41), no entry
equal to what an unlisted address reads as. -/
abbrev Memory.wf (m : Memory) : Prop :=
  m.Pairwise (fun c d => c.1 < d.1) ∧ ∀ c ∈ m, c.1 < 2 ^ Config.aw ∧ c.2 ≠ Config.unlistedByte

/-! ### The table -/

/-- `TABLE[k][n]`: the value, or none where the entry holds no value (10_state R22, R34). -/
def tableEntry (t : Table) (k : Fin 8) (n : Byte) : Option Word := (t[k.val])[n.toNat]'n.isLt

/-- A lookup of an update: the entry's value; reading an entry without one is the model's only fault
(93_implementation_defined U1). -/
def readEntry (t : Table) (k : Fin 8) (n : Byte) : Except Fault Word :=
  match tableEntry t k n with
  | some v => .ok v
  | none => .error (.tableEntryUnbuilt k n)

/-- `TABLE[k][n] <- f n` for every `n` in `0..255`. The order of the 256 writes is not observable
(40_table_builder R82, R90). -/
def tableSetRow (t : Table) (k : Fin 8) (f : Byte → Option Word) : Table :=
  t.set k.val (Vector.ofFn fun i : Fin 256 => f (BitVec.ofFin i))

/-! ### Ports -/

/-- `admits(a, n)` (20_memory R49). -/
def admits (denied : List DeniedReads) (r : DmemRead) : Bool :=
  !denied.any fun d => decide (d.width = r.width) && decide (d.first ≤ r.addr) && decide (r.addr ≤ d.last)

/-- The reads an operation issued stand in the port history. -/
def logReads (rs : List DmemRead) (s : State) : State := { s with trace := s.trace ++ rs.map .read }

/-- `respond(v)` and `respond()` (30_encoding R64). -/
def respond (r : Response) (s : State) : State := { s with trace := s.trace ++ [.respond r] }

/-- `refuse(reason)` (60_exceptions R134): nothing happens but that the state is marked. -/
def refuse (why : RefuseReason) (s : State) : State := { s with refusals := s.refusals ++ [why] }

/-- The running update is stuck at a read that is not admitted (60_exceptions R135). -/
def stall (r : DmemRead) (s : State) : State := { s with stalled := some r }

/-! ### The host's moves -/

/-- The reset event (70_reset_and_hazards R150): the flag clear, every entry without a value, no other effect. -/
def hostReset (s : State) : State := { s with initFlag := false, table := unbuiltTable }

/-- The host fills one byte of DMEM (20_memory R41). -/
def hostWrite (a : Addr) (b : Byte) (s : State) : State := { s with dmem := memWrite s.dmem a.toNat b }

/-- What the next host move makes of the state: an operation to execute, or a state that is already the result. -/
inductive Move where
  | execute (i : Instr) (s : State)
  | settled (s : State)
deriving DecidableEq, Repr

/-- A command at the command port (30_encoding R73): decoded, or refused as reserved (R68). -/
def takeCommand (w : Command) (s : State) : Move :=
  match decode w with
  | .ok i => .execute i s
  | .error why => .settled (refuse (.reservedCommand why) s)

/-- The next move of the host. A stuck update serves no later move (60_exceptions R135); with no move pending the
engine holds its state (R141). -/
def takeMove (s : State) : Move :=
  match s.stalled with
  | some _ => .settled s
  | none =>
    match s.inputs with
    | [] => .settled s
    | .command w :: rest => takeCommand w { s with inputs := rest }
    | .reset :: rest => .settled (hostReset { s with inputs := rest })
    | .write a b :: rest => .settled (hostWrite a b { s with inputs := rest })

/-- `w` is the next command at the command port, and no update is stuck. -/
def placeCommand (w : Command) (s : State) : State :=
  { s with inputs := .command w :: s.inputs, stalled := none }

/-! ### The working values of one operation, and its loops -/

/-- The working values of an update (10_state R32), with the reads it has issued, earliest first. -/
structure Work where
  crc : Word
  pos : Nat
  rem : Nat
  consumed : Nat
  reads : List DmemRead
deriving DecidableEq, Repr

/-- How an update ends without a response: stuck at a read after the reads already issued, or a fault. -/
inductive Halt where
  | stuck (at_ : DmemRead) (reads : List DmemRead)
  | fault (f : Fault)
deriving DecidableEq, Repr

/-- The working values at the start of an update (41_updater_slice1 R101, 42_updater_slice8 R114). -/
def startWork (crc : Word) (addr : Addr) (len : Len) : Work :=
  { crc := crc, pos := addr.toNat, rem := len.toNat, consumed := 0, reads := [] }

/-- One data-memory request: issued if the platform admits it (20_memory R49), else the update is stuck. -/
def issueRead (s : State) (r : DmemRead) (w : Work) : Except Halt Work :=
  if admits s.denied r then .ok { w with reads := w.reads ++ [r] } else .error (.stuck r w.reads)

/-- The accumulator takes the value of a fold; the read position and the rest move on by `n` bytes. -/
def advance (n : Nat) (w : Work) : Except Fault Word → Except Halt Work
  | .ok crc => .ok { w with crc := crc, pos := w.pos + n, rem := w.rem - n }
  | .error f => .error (.fault f)

/-- `while cond: body`, at most `n` times round. Each loop of an update is given a bound it cannot exceed
(70_reset_and_hazards R162). -/
def whileLoop (cond : Work → Bool) (body : Work → Except Halt Work) : Nat → Work → Except Halt Work
  | 0, w => .ok w
  | n + 1, w =>
    if cond w then
      match body w with
      | .ok w' => whileLoop cond body n w'
      | .error h => .error h
    else .ok w

/-- The end of an update: its reads stand in the history and it responds (30_encoding R64), or is stuck
(60_exceptions R135). -/
def finishUpdate (s : State) : Except Halt Work → Host.Outcome State Fault Refusal
  | .ok w => .next (respond (.value w.crc) (logReads w.reads s))
  | .error (.stuck r reads) => .next (stall r (logReads reads s))
  | .error (.fault f) => .fault f

end Sys2Proof.Machine
end

