-- ==== Sys2Proof/Machine/Builder.lean ====
section
/-!
DEFINITION. The sub-block `crc64_table_builder` and the operation `INIT` (40_table_builder R80 to R84).
-/

namespace Sys2Proof.Machine

/-- `POLY` (10_state R21). -/
def poly : Word := 0xD800000000000000

/-- `poly_round(v)`, one round of bit-reversed polynomial division (40_table_builder R80). -/
def polyRound (v : Word) : Word := if v.getLsbD 0 then (v >>> 1) ^^^ poly else v >>> 1

/-- `r` rounds. -/
def polyRounds : Nat → Word → Word
  | 0, v => v
  | r + 1, v => polyRounds r (polyRound v)

/-- `base_entry(n)`: 8 rounds from `zext_64(n)` (40_table_builder R81). -/
def baseEntry (n : Byte) : Word := polyRounds 8 (n.setWidth 64)

/-- `build_base_table`: row 0 (40_table_builder R82). -/
def buildBaseTable (t : Table) : Table := tableSetRow t 0 fun n => some (baseEntry n)

/-- The entry of row `k` made from row `k - 1` and row 0 (40_table_builder R83). An entry made from one that holds
no value holds none; no build makes such an entry, since row 0 is complete before any other row. -/
def sliceEntry (t : Table) (k : Fin 8) (n : Byte) : Option Word :=
  (tableEntry t (k - 1) n).bind fun p =>
    (tableEntry t 0 (lowByte p)).map fun q => q ^^^ (p >>> 8)

/-- One row of `build_slice_tables`. -/
def buildSliceRow (t : Table) (k : Fin 8) : Table := tableSetRow t k (sliceEntry t k)

/-- `build_slice_tables`: rows 1 to 7, ascending (40_table_builder R83). -/
def buildSliceTables (t : Table) : Table := [1, 2, 3, 4, 5, 6, 7].foldl buildSliceRow t

/-- The body of the guarded build: both tables, then the flag (40_table_builder R84). -/
def build (s : State) : State := setInitFlag { s with table := buildSliceTables (buildBaseTable s.table) }

/-- `ensure_built`, also the first step of `UPDATE1` and `UPDATE8` (40_table_builder R84). -/
def ensureBuilt (s : State) : State := if initFlagClear s then build s else s

/-- `INIT` (40_table_builder R84). -/
def execInit (s : State) : Host.Outcome State Fault Refusal := .next (respond .ack (ensureBuilt s))

end Sys2Proof.Machine
end

