-- ==== Sys2Proof/Machine/Slice1.lean ====
section
/-!
DEFINITION. The sub-block `crc64_updater_slice1` and the operation `UPDATE1` (41_updater_slice1 R100, R101).
-/

namespace Sys2Proof.Machine

/-- `fold1(crc, b)` (41_updater_slice1 R100). -/
def fold1 (t : Table) (crc : Word) (b : Byte) : Except Fault Word :=
  (readEntry t 0 (idx1 crc b)).map fun e => e ^^^ (crc >>> 8)

/-- One byte fold: a 1-byte read at `pos`, then `fold1` (41_updater_slice1 R101). -/
def byteStep (s : State) (w : Work) : Except Halt Work :=
  (issueRead s ⟨w.pos, .one⟩ w).bind fun w' =>
    advance 1 w' (fold1 s.table w'.crc (memRead1 s.dmem w'.pos))

/-- `while rem > 0`, one byte at a time: the loop of `UPDATE1`, and phase 3 of `UPDATE8`. -/
def byteLoop (s : State) (w : Work) : Except Halt Work :=
  whileLoop (fun w => decide (0 < w.rem)) (byteStep s) w.rem w

/-- `UPDATE1` (41_updater_slice1 R101), the checks in the order of 60_exceptions R137. -/
def execUpdate1 (crc : Word) (addr : Addr) (len : Len) (s : State) : Host.Outcome State Fault Refusal :=
  if inRange Config.aw addr len then
    finishUpdate (ensureBuilt s) (byteLoop (ensureBuilt s) (startWork crc addr len))
  else .next (refuse .range s)

end Sys2Proof.Machine
end

