-- ==== Sys2Proof/Machine/Slice8.lean ====
section
/-!
DEFINITION. The sub-block `crc64_updater_slice8` and the operation `UPDATE8` (42_updater_slice8 R110 to R114).
-/

namespace Sys2Proof.Machine

/-- The lookup of lane `i` of the mixed accumulator in row `7 - i` (30_encoding R67). -/
def laneLookup (t : Table) (m : Word) (i : Fin 8) : Except Fault Word := readEntry t (laneRow i) (lane m i)

/-- The eight lookups combined by exclusive-or; all use the same mixed accumulator `m` (42_updater_slice8 R110). -/
def laneXor (t : Table) (m : Word) : Except Fault Word := do
  let e0 ← laneLookup t m 0
  let e1 ← laneLookup t m 1
  let e2 ← laneLookup t m 2
  let e3 ← laneLookup t m 3
  let e4 ← laneLookup t m 4
  let e5 ← laneLookup t m 5
  let e6 ← laneLookup t m 6
  let e7 ← laneLookup t m 7
  .ok (e0 ^^^ e1 ^^^ e2 ^^^ e3 ^^^ e4 ^^^ e5 ^^^ e6 ^^^ e7)

/-- `fold8(crc, w)` (42_updater_slice8 R110). -/
def fold8 (t : Table) (crc w : Word) : Except Fault Word := laneXor t (crc ^^^ w)

/-- Phase 1's byte fold also counts the byte in `consumed` (42_updater_slice8 R111). -/
def prologueStep (s : State) (w : Work) : Except Halt Work :=
  byteStep s { w with consumed := w.consumed + 1 }

/-- Phase 1, the alignment prologue (42_updater_slice8 R111; `rem > 0` by 90_conflicts C3). -/
def phase1 (s : State) (w : Work) : Except Halt Work :=
  whileLoop (fun w => decide (w.consumed < 8) && decide (w.pos % 8 ≠ 0) && decide (0 < w.rem)) (prologueStep s) w.rem w

/-- One word fold: an 8-byte read at `pos`, then `fold8` (42_updater_slice8 R112). -/
def wordStep (s : State) (w : Work) : Except Halt Work :=
  (issueRead s ⟨w.pos, .eight⟩ w).bind fun w' =>
    advance 8 w' (fold8 s.table w'.crc (memRead8 s.dmem w'.pos))

/-- Phase 2, bulk (42_updater_slice8 R112). -/
def phase2 (s : State) (w : Work) : Except Halt Work :=
  whileLoop (fun w => decide (8 ≤ w.rem)) (wordStep s) w.rem w

/-- Phase 3, the epilogue (42_updater_slice8 R113). -/
def phase3 (s : State) (w : Work) : Except Halt Work := byteLoop s w

/-- The three phases (42_updater_slice8 R114). -/
def threePhases (s : State) (w : Work) : Except Halt Work :=
  ((phase1 s w).bind (phase2 s)).bind (phase3 s)

/-- `UPDATE8` (42_updater_slice8 R114), the checks in the order of 60_exceptions R137. -/
def execUpdate8 (crc : Word) (addr : Addr) (len : Len) (s : State) : Host.Outcome State Fault Refusal :=
  if inRange Config.aw addr len then
    finishUpdate (ensureBuilt s) (threePhases (ensureBuilt s) (startWork crc addr len))
  else .next (refuse .range s)

end Sys2Proof.Machine
end

