-- ==== Sys2Proof/Machine/Dispatch.lean ====
section
/-!
DEFINITION. One arm per operation of the opcode table (30_encoding R61).
-/

namespace Sys2Proof.Machine

def exec (i : Instr) (s : State) : Host.Outcome State Fault Refusal :=
  match i with
  | .init => Sys2Proof.Machine.execInit s
  | .update1 crc addr len => Sys2Proof.Machine.execUpdate1 crc addr len s
  | .update8 crc addr len => Sys2Proof.Machine.execUpdate8 crc addr len s

end Sys2Proof.Machine
end

