-- ==== Sys2Proof/Machine/Step.lean ====
section
/-!
DEFINITION. One step: the next move of the host, to completion (20_memory R51, 10_state R32).
-/

namespace Sys2Proof.Machine

/-- One step of the machine. -/
def step (s : State) : Host.Outcome State Fault Refusal :=
  match takeMove s with
  | .execute i s' => exec i s'
  | .settled s' => .next s'

/-- The opcode-table word `w` of `nbits` bits is the next command at the command port (log entry 12). -/
def State.withFetchWord (s : State) (nbits w : Nat) : State := placeCommand (tableCommand nbits w) s

end Sys2Proof.Machine
end

