-- ==== Sys2Proof/Safety.lean ====
section
/-!
DEFINITION. The terms claims use: the value of the table (10_state R24), the invariant of every state (R26, 20_memory R45, R49), the pure functions an update computes (41_updater_slice1 R101, R108), the reads it issues (42_updater_slice8 R117, R118), what it is for an update to respond, and a run that met no refusal and is not stuck.
-/

namespace Sys2Proof.Machine

/-! ### The table -/

/-- The value of `TABLE[k][n]` once built (10_state R24). -/
def tableValue : Nat → Byte → Word
  | 0, n => baseEntry n
  | k + 1, n => baseEntry (lowByte (tableValue k n)) ^^^ (tableValue k n >>> 8)

/-- Every entry holds its value of 10_state R24. -/
def TableBuilt (t : Table) : Prop := ∀ (k : Fin 8) (n : Byte), tableEntry t k n = some (tableValue k.val n)

/-- The first half of the state invariant of 10_state R26: `INIT_FLAG = 1` implies a built table. -/
def TableSound (s : State) : Prop := s.initFlag = true → TableBuilt s.table

/-! ### What an update computes -/

/-- The value of `fold1(crc, b)` over the built table (41_updater_slice1 R100). -/
def byteFold (crc : Word) (b : Byte) : Word := baseEntry (idx1 crc b) ^^^ (crc >>> 8)

/-- The value of `fold8(crc, w)` over the built table: the eight lookups of the mixed accumulator, lane `i` in row
`7 - i` (42_updater_slice8 R110). -/
def wordFold (crc w : Word) : Word :=
  tableValue 7 (lane (crc ^^^ w) 0) ^^^ tableValue 6 (lane (crc ^^^ w) 1) ^^^ tableValue 5 (lane (crc ^^^ w) 2) ^^^
    tableValue 4 (lane (crc ^^^ w) 3) ^^^ tableValue 3 (lane (crc ^^^ w) 4) ^^^ tableValue 2 (lane (crc ^^^ w) 5) ^^^
    tableValue 1 (lane (crc ^^^ w) 6) ^^^ tableValue 0 (lane (crc ^^^ w) 7)

/-- `update1(crc, bs) = foldl fold1 crc bs` (41_updater_slice1 R101). -/
def crcUpdate (crc : Word) (bs : List Byte) : Word := bs.foldl byteFold crc

/-- The table-free byte step: xor the byte into the low byte, then 8 rounds (41_updater_slice1 R108). -/
def serialFold (crc : Word) (b : Byte) : Word := polyRounds 8 (crc ^^^ b.setWidth 64)

/-- The input of an update: the `len` bytes at `addr` upward, first byte at the lowest address (20_memory R41). -/
def dmemBytes (m : Memory) (addr len : Nat) : List Byte := (List.range len).map fun i => memRead1 m (addr + i)

/-- The words of phase 2: `n` eight-byte reads, one after another from `addr` (42_updater_slice8 R112). -/
def dmemWords (m : Memory) (addr n : Nat) : List Word := (List.range n).map fun j => memRead8 m (addr + 8 * j)

/-! ### What an update reads -/

/-- The reads of `UPDATE1`: `len` 1-byte reads, ascending (20_memory R47). -/
def update1Reads (addr len : Nat) : List DmemRead := (List.range len).map fun i => ⟨addr + i, .one⟩

/-- `npro`, the byte folds of phase 1 (42_updater_slice8 R117). -/
def npro (addr len : Nat) : Nat := min len ((8 - addr % 8) % 8)

/-- `nbulk`, the word folds of phase 2 (42_updater_slice8 R117). -/
def nbulk (addr len : Nat) : Nat := (len - npro addr len) / 8

/-- `nepi`, the byte folds of phase 3 (42_updater_slice8 R117). -/
def nepi (addr len : Nat) : Nat := (len - npro addr len) % 8

/-- The reads of `UPDATE8`, in order (42_updater_slice8 R118). -/
def update8Reads (addr len : Nat) : List DmemRead :=
  (List.range (npro addr len)).map (fun j => ⟨addr + j, .one⟩) ++
    (List.range (nbulk addr len)).map (fun j => ⟨addr + npro addr len + 8 * j, .eight⟩) ++
    (List.range (nepi addr len)).map (fun j => ⟨addr + npro addr len + 8 * nbulk addr len + j, .one⟩)

/-- What the three phases of `UPDATE8` compute: byte folds up to alignment, word folds, byte folds of the rest
(42_updater_slice8 R111 to R114). -/
def phasesUpdate (m : Memory) (crc : Word) (addr len : Nat) : Word :=
  crcUpdate
    ((dmemWords m (addr + npro addr len) (nbulk addr len)).foldl wordFold
      (crcUpdate crc (dmemBytes m addr (npro addr len))))
    (dmemBytes m (addr + npro addr len + 8 * nbulk addr len) (nepi addr len))

/-- The bytes of DMEM that a read covers. -/
def covered (r : DmemRead) : List Nat :=
  match r.width with
  | .one => [r.addr]
  | .eight => (List.range 8).map (r.addr + ·)

/-- The platform admits every read of a list (20_memory R49, the premise of a claim about an update). -/
def AdmitsAll (denied : List DeniedReads) (rs : List DmemRead) : Prop := ∀ r ∈ rs, admits denied r = true

/-! ### Updates in either mode -/

/-- An update in the mode chosen: `UPDATE8` if `wide`, else `UPDATE1`. -/
def updateOp (wide : Bool) (crc : Word) (addr : Addr) (len : Len) : Instr :=
  if wide then .update8 crc addr len else .update1 crc addr len

/-- The reads of an update in the mode chosen. -/
def updateReads (wide : Bool) (addr : Addr) (len : Len) : List DmemRead :=
  if wide then update8Reads addr.toNat len.toNat else update1Reads addr.toNat len.toNat

/-- The operation is accepted: `INIT` always is, an update is if it meets the range precondition (20_memory R58). -/
def accepted : Instr → Bool
  | .init => true
  | .update1 _ addr len => inRange Config.aw addr len
  | .update8 _ addr len => inRange Config.aw addr len

/-! ### What an operation leaves -/

/-- Everything but the engine's pair, the port history, the refusal mark and the stuck read is as before. -/
structure HostSideKept (s t : State) : Prop where
  dmem : t.dmem = s.dmem
  denied : t.denied = s.denied
  inputs : t.inputs = s.inputs

/-- After `ensure_built` (40_table_builder R84): the flag is set; a table that was built stays as it was, one that
was not is built. -/
structure EngineBuilt (s t : State) : Prop where
  flag : t.initFlag = true
  kept : s.initFlag = true → t.table = s.table
  built : s.initFlag = false → TableBuilt t.table

/-- The state `t` in which an update started in `s` has responded `crc` after the reads `rs`, with everything it
leaves unchanged. -/
structure Responded (s t : State) (rs : List DmemRead) (crc : Word) : Prop where
  engine : EngineBuilt s t
  host : HostSideKept s t
  trace : t.trace = s.trace ++ rs.map .read ++ [.respond (.value crc)]
  refusals : t.refusals = s.refusals
  stalled : t.stalled = s.stalled

/-- The operation `i`, executed in `s`, answers the next state `t` and the response `crc` is the last thing it sends
after its reads (30_encoding R64). -/
def Replies (i : Instr) (s : State) (crc : Word) (t : State) : Prop :=
  exec i s = .next t ∧ ∃ rs : List DmemRead, t.trace = s.trace ++ rs.map .read ++ [.respond (.value crc)]

/-- A stream of updates (30_encoding R72): each chunk is a mode, an address and a length, and each response is the
`crc` operand of the next update. From `s` and `crc` it ends in `t` with the accumulator `c`. -/
def Stream : List (Bool × Addr × Len) → State → Word → Word → State → Prop
  | [], s, crc, c, t => c = crc ∧ t = s
  | (wide, addr, len) :: rest, s, crc, c, t =>
    ∃ c1 t1, Replies (updateOp wide crc addr len) s c1 t1 ∧ Stream rest t1 c1 c t

/-- The input bytes of a stream's chunks, in order. -/
def streamBytes (m : Memory) (chunks : List (Bool × Addr × Len)) : List Byte :=
  chunks.flatMap fun ch => dmemBytes m ch.2.1.toNat ch.2.2.toNat

/-! ### The invariant -/

/-- A read that an operation may issue: inside DMEM, and an 8-byte read at a multiple of 8 (20_memory R45, R58). -/
def ReadOk (r : DmemRead) : Prop :=
  match r.width with
  | .one => r.addr < 2 ^ Config.aw
  | .eight => r.addr + 8 ≤ 2 ^ Config.aw ∧ r.addr % 8 = 0

/-- What every step keeps: the table is built when the flag says so (10_state R26), DMEM is in its canonical form,
every read that was issued was one the engine may issue and the platform admits, and a stuck update waits for a read
the platform does not admit (20_memory R49). -/
structure Inv (s : State) : Prop where
  tableSound : TableSound s
  memory : Memory.wf s.dmem
  reads : ∀ r, .read r ∈ s.trace → ReadOk r ∧ admits s.denied r = true
  stalled : ∀ r, s.stalled = some r → ReadOk r ∧ admits s.denied r = false

/-- The run so far met no refused command and no stuck update: what a claim about its results takes as a premise
(60_exceptions R134, R135). -/
def Clean (s : State) : Prop := s.refusals = [] ∧ s.stalled = none

end Sys2Proof.Machine
end

