-- ==== Sys2Proof/Certificates/Slice0/Obligations.lean ====
section
/-!
DEFINITION. The statements for the provers, each a proposition about this machine that a rule of the spec makes or that follows from several.
-/

open Sys2Proof Sys2Proof.Machine

/-! ### Format C, decoding and the command port -/

/-- 30_encoding R73, at every choice of the open widths: encoding then decoding is the identity on operations whose
operands fit; decoding then encoding is the identity on non-reserved words, except that the ignored fields of `INIT`
are not recovered. -/
def Obligations.DecodeEncodeAgree : Prop :=
  ∀ aw lenw : Nat,
    (∀ i, wellFormedAt aw lenw i = true → decodeAt aw lenw (encode i) = .ok i) ∧
    (∀ w i, decodeAt aw lenw w = .ok i →
      wellFormedAt aw lenw i = true ∧ (i = .init → w.extractLsb' 192 64 = 0) ∧ (i ≠ .init → encode i = w))

/-- 30_encoding R62, R63, R68, R73: which operation a word is, by its op word and then the width checks, and where its
operand fields stand. The spec has the one reason `reserved_command`: the three names, and `addrWidth` before `lenWidth`
where both checks fail, are the model's choice (log entry 13). -/
def Obligations.DecodingByOpWord : Prop :=
  ∀ (aw lenw : Nat) (w : Command) (op crc : Word) (addr : Addr) (len : Len),
    op = w.extractLsb' 192 64 → crc = w.extractLsb' 128 64 → addr = w.extractLsb' 64 64 → len = w.extractLsb' 0 64 →
    (op = 0 → decodeAt aw lenw w = .ok .init) ∧
    (op = 1 → addr.toNat < 2 ^ aw → len.toNat < 2 ^ lenw → decodeAt aw lenw w = .ok (.update1 crc addr len)) ∧
    (op = 2 → addr.toNat < 2 ^ aw → len.toNat < 2 ^ lenw → decodeAt aw lenw w = .ok (.update8 crc addr len)) ∧
    (op = 1 ∨ op = 2 → 2 ^ aw ≤ addr.toNat → decodeAt aw lenw w = .error .addrWidth) ∧
    (op = 1 ∨ op = 2 → addr.toNat < 2 ^ aw → 2 ^ lenw ≤ len.toNat → decodeAt aw lenw w = .error .lenWidth) ∧
    (op ≠ 0 → op ≠ 1 → op ≠ 2 → decodeAt aw lenw w = .error .opWord)

/-- Command words written out in 95_test_vectors P1, P2, P3, V7. -/
def Obligations.KnownCommandWordsDecode : Prop :=
  decode 0x0000000000000000000000000000000000000000000000000000000000000000 = .ok .init ∧
  decode 0x0000000000000001000000000000000000000000000010000000000000000009 = .ok (.update1 0 0x1000 9) ∧
  decode 0x0000000000000002FFFFFFFFFFFFFFFF00000000000010030000000000000005 =
    .ok (.update8 0xFFFFFFFFFFFFFFFF 0x1003 5) ∧
  decode 0x0000000000000000DEADBEEFDEADBEEF00000000000012340000000000005678 = .ok .init ∧
  decode 0x0000000000000003000000000000000000000000000000000000000000000000 = .error .opWord ∧
  decode 0x0000000000000004000000000000000000000000000000000000000000000000 = .error .opWord ∧
  decode 0x8000000000000001000000000000000000000000000000000000000000000000 = .error .opWord

/-- 30_encoding R69: whatever stands in the other 192 bits of a command with op word 0, it is accepted and the step is
that of `INIT`. -/
def Obligations.InitIgnoresItsOperandFields : Prop :=
  ∀ (s : State) (w : Command) (rest : List HostInput),
    s.stalled = none → s.inputs = .command w :: rest → w.extractLsb' 192 64 = 0 →
    step s = exec .init { s with inputs := rest }

/-- 20_memory R51: the step takes the next command off the port and runs what it decodes to; and a table word placed
by `withFetchWord` is what the next step runs.
The queue of host moves is the model's own (log entries 4, 12). That placing a command clears a stuck read, so that the
second clause holds from a stuck state too, is the model's choice (log entry 7). -/
def Obligations.StepRunsTheDecodedCommand : Prop :=
  (∀ (s : State) (w : Command) (rest : List HostInput) (i : Instr),
    s.stalled = none → s.inputs = .command w :: rest → decode w = .ok i →
    step s = exec i { s with inputs := rest }) ∧
  (∀ (s : State) (nbits w : Nat) (i : Instr),
    decodeTableWord nbits w = some i → step (s.withFetchWord nbits w) = exec i { s with stalled := none })

/-- 30_encoding R68, 60_exceptions R134: a reserved command changes nothing but the mark.
That the run goes on from a marked state is the model's reading (log entry 6). -/
def Obligations.ReservedCommandIsRefused : Prop :=
  ∀ (s : State) (w : Command) (rest : List HostInput) (why : Reserved),
    s.stalled = none → s.inputs = .command w :: rest → decode w = .error why →
    step s = .next { s with inputs := rest, refusals := s.refusals ++ [.reservedCommand why] }

/-- 60_exceptions R141: with no move pending the engine holds its state.
The queue of host moves is the model's own (log entry 4). -/
def Obligations.IdleEngineHoldsItsState : Prop :=
  ∀ s : State, s.inputs = [] → step s = .next s

/-- 60_exceptions R135: a stuck update never responds and no later command is served, however long the run.
That a stuck update is a state that steps to itself is the model's form (log entry 7). -/
def Obligations.StuckEngineServesNothing : Prop :=
  ∀ (s : State) (r : DmemRead) (k : Nat), s.stalled = some r → Host.Core.run core k s = .next s

/-! ### Reset and the host's writes -/

/-- 70_reset_and_hazards R150: reset clears the flag, leaves every entry without a value, and does nothing else.
That the port history and the mark outlive a reset is the model's choice (log entries 5, 6). -/
def Obligations.ResetMoveResetsTheEngine : Prop :=
  ∀ (s : State) (rest : List HostInput), s.stalled = none → s.inputs = .reset :: rest →
    ∃ t, step s = .next t ∧ t.initFlag = false ∧ (∀ k n, tableEntry t.table k n = none) ∧
      t.dmem = s.dmem ∧ t.denied = s.denied ∧ t.inputs = rest ∧ t.trace = s.trace ∧ t.refusals = s.refusals ∧
      t.stalled = none

/-- 20_memory R41: the host's write of a byte changes that byte of DMEM and nothing else, and keeps the canonical
form.
The move is the model's own form (log entry 4). -/
def Obligations.HostWriteFillsOneByte : Prop :=
  ∀ (s : State) (a : Addr) (b : Byte) (rest : List HostInput),
    s.stalled = none → s.inputs = .write a b :: rest → Memory.wf s.dmem →
    ∃ t, step s = .next t ∧ Memory.wf t.dmem ∧ memRead1 t.dmem a.toNat = b ∧
      (∀ x, x ≠ a.toNat → memRead1 t.dmem x = memRead1 s.dmem x) ∧
      t = { s with inputs := rest, dmem := t.dmem }

/-- 10_state R34, R21: what reset leaves, and the constant polynomial with its four 1 bits. -/
def Obligations.ResetStateValues : Prop :=
  State.reset.initFlag = false ∧ (∀ k n, tableEntry State.reset.table k n = none) ∧
  poly = 0xD800000000000000 ∧
  (∀ i, poly.getLsbD i = true ↔ i = 63 ∨ i = 62 ∨ i = 60 ∨ i = 59)

/-! ### The table builder -/

/-- 40_table_builder R80: the round, its four corner cases and its example. -/
def Obligations.PolyRoundAndItsCorners : Prop :=
  (∀ v : Word, (v.getLsbD 0 = true → polyRound v = (v >>> 1) ^^^ poly) ∧ (v.getLsbD 0 = false → polyRound v = v >>> 1)) ∧
  polyRound 0 = 0 ∧ polyRound 1 = 0xD800000000000000 ∧
  polyRound 0xFFFFFFFFFFFFFFFF = 0xA7FFFFFFFFFFFFFF ∧
  polyRound 0x8000000000000000 = 0x4000000000000000 ∧
  polyRound 0x31 = 0xD800000000000018

/-- 40_table_builder R81: eight rounds from the zero-extended byte, the corner cases and the trace of `n = 1`. -/
def Obligations.BaseEntryIsEightRounds : Prop :=
  (∀ n : Byte, baseEntry n =
    polyRound (polyRound (polyRound (polyRound (polyRound (polyRound (polyRound (polyRound (n.setWidth 64))))))))) ∧
  baseEntry 0 = 0 ∧ baseEntry 0x80 = poly ∧ baseEntry 0xFF = 0x9090000000000000 ∧
  [1, 2, 3, 4, 5, 6, 7, 8].map (fun r => polyRounds r ((1 : Byte).setWidth 64)) =
    [0xD800000000000000, 0x6C00000000000000, 0x3600000000000000, 0x1B00000000000000,
     0x0D80000000000000, 0x06C0000000000000, 0x0360000000000000, 0x01B0000000000000]

/-- 40_table_builder R84: `INIT` always completes and acknowledges; with the flag clear it builds every entry at its
value of 10_state R24, with the flag set it writes no entry; either way the flag is set afterwards and nothing else
changes.
The port history is the model's own field (log entry 5). -/
def Obligations.InitBuildsAndAcknowledges : Prop :=
  ∀ s : State, ∃ t, exec .init s = .next t ∧
    t.initFlag = true ∧ (s.initFlag = false → TableBuilt t.table) ∧ (s.initFlag = true → t.table = s.table) ∧
    t.trace = s.trace ++ [.respond .ack] ∧ t.dmem = s.dmem ∧ t.denied = s.denied ∧ t.inputs = s.inputs ∧
    t.refusals = s.refusals ∧ t.stalled = s.stalled

/-- 10_state R24, 40_table_builder R82, R83: read back from the table that `INIT` leaves, row 0 holds the base
entries and each entry of a later row is made from the row before it and row 0. -/
def Obligations.BuiltTableFollowsItsRecurrence : Prop :=
  ∀ s t : State, s.initFlag = false → exec .init s = .next t →
    (∀ n, tableEntry t.table 0 n = some (baseEntry n)) ∧
    (∀ (j k : Fin 8) (n : Byte), k.val = j.val + 1 →
      ∃ p q, tableEntry t.table j n = some p ∧ tableEntry t.table 0 (p.setWidth 8) = some q ∧
        tableEntry t.table k n = some (q ^^^ (p >>> 8)))

/-- 40_table_builder R85: with the flag set, `INIT` only acknowledges; and a second `INIT` changes nothing the first
one left. -/
def Obligations.SecondInitIsNoOp : Prop :=
  (∀ s : State, s.initFlag = true → exec .init s = .next { s with trace := s.trace ++ [.respond .ack] }) ∧
  (∀ s t : State, exec .init s = .next t → exec .init t = .next { t with trace := t.trace ++ [.respond .ack] })

/-- 40_table_builder R87: the table built after any reset is bit-identical to the one built after any other,
whatever the table space held before. -/
def Obligations.BuildIsReproducible : Prop :=
  ∀ s s' t t' : State, s.initFlag = false → s'.initFlag = false →
    exec .init s = .next t → exec .init s' = .next t' → t.table = t'.table

/-- 40_table_builder R88: the facts about row 0. -/
def Obligations.BaseRowFacts : Prop :=
  ∀ t : Table, TableBuilt t → ∃ v : Byte → Word,
    (∀ n, tableEntry t 0 n = some (v n)) ∧ v 0 = 0 ∧ v 0x80 = poly ∧
    (∀ a b, v (a ^^^ b) = v a ^^^ v b) ∧
    v 0x01 = 0x01B0000000000000 ∧ v 0x02 = 0x0360000000000000 ∧ v 0x04 = 0x06C0000000000000 ∧
    v 0x08 = 0x0D80000000000000 ∧ v 0x10 = 0x1B00000000000000 ∧ v 0x20 = 0x3600000000000000 ∧
    v 0x40 = 0x6C00000000000000 ∧ v 0x80 = 0xD800000000000000 ∧
    (∀ a b, v a = v b → a = b) ∧ (∀ n i, i ≤ 51 → (v n).getLsbD i = false)

/-- 40_table_builder R89: the facts about rows 1 to 7. The lookup term is that of entry 0 for rows 1 to 6 and is not 0
for some entry of row 7. -/
def Obligations.SliceRowFacts : Prop :=
  ∀ t : Table, TableBuilt t → ∃ v : Fin 8 → Byte → Word,
    (∀ k n, tableEntry t k n = some (v k n)) ∧
    (∀ k n, 1 ≤ k.val → k.val ≤ 6 → v k n = v 0 n >>> (8 * k.val)) ∧
    (∀ n, v 7 n = v 0 ((v 0 n >>> 48).setWidth 8) ^^^ (v 0 n >>> 56)) ∧
    (∀ k n, v k n = crcUpdate 0 (n :: List.replicate k.val 0)) ∧
    (∀ k a b, v k (a ^^^ b) = v k a ^^^ v k b) ∧ (∀ k, v k 0 = 0) ∧
    (∀ k n, k.val ≤ 5 → (v k n).setWidth 8 = (0 : Byte)) ∧ (∃ n, v 0 ((v 0 n >>> 48).setWidth 8) ≠ 0)

/-- 40_table_builder R92: a base entry is the fold of its byte from 0 and the response of a one-byte `UPDATE1` from 0;
and one lookup replaces eight rounds exactly. -/
def Obligations.LookupReplacesEightRounds : Prop :=
  (∀ t : Table, TableBuilt t →
    (∀ n : Byte, fold1 t 0 n = .ok (baseEntry n)) ∧
    (∀ (c : Word) (b : Byte), ∃ e, tableEntry t 0 ((c ^^^ b.setWidth 64).setWidth 8) = some e ∧
      polyRounds 8 (c ^^^ b.setWidth 64) = e ^^^ (c >>> 8))) ∧
  (∀ (s t : State) (c : Word) (addr : Addr), TableSound s →
    Replies (.update1 0 addr 1) s c t → c = baseEntry (memRead1 s.dmem addr.toNat))

/-! ### Folds and the wide read -/

/-- 30_encoding R66, 41_updater_slice1 R100: the index of a byte fold, its value over a built table, the corner cases
and the example. -/
def Obligations.ByteFoldIndexAndValue : Prop :=
  ∀ t : Table, TableBuilt t →
    (∀ (crc : Word) (b : Byte), idx1 crc b = crc.extractLsb' 0 8 ^^^ b ∧
      ∃ e, tableEntry t 0 (idx1 crc b) = some e ∧ fold1 t crc b = .ok (e ^^^ (crc >>> 8))) ∧
    fold1 t 0 0 = .ok 0 ∧
    (∀ b, ∃ e, tableEntry t 0 b = some e ∧ fold1 t 0 b = .ok e) ∧
    (∀ crc : Word, fold1 t crc (crc.setWidth 8) = .ok (crc >>> 8)) ∧
    fold1 t 0xFFFFFFFFFFFFFFFF 0xFF = .ok 0x00FFFFFFFFFFFFFF ∧
    fold1 t 0x2CB0000000000000 0x32 = .ok 0x2E4CB00000000000

/-- 30_encoding R67, 42_updater_slice8 R110: lane `i` of the mixed accumulator indexes row `7 - i`, the eight lookups
are combined by exclusive-or; the corner cases and the example. -/
def Obligations.WordFoldLanesAndValue : Prop :=
  (∀ (m : Word) (i : Fin 8), lane m i = m.extractLsb' (8 * i.val) 8 ∧ (laneRow i).val = 7 - i.val) ∧
  (∀ m : Word, (lane m 7).setWidth 64 = m >>> 56) ∧
  ∀ t : Table, TableBuilt t →
    (∀ crc w m : Word, m = crc ^^^ w →
      ∃ e7 e6 e5 e4 e3 e2 e1 e0 : Word,
        tableEntry t 7 (m.extractLsb' 0 8) = some e7 ∧ tableEntry t 6 (m.extractLsb' 8 8) = some e6 ∧
        tableEntry t 5 (m.extractLsb' 16 8) = some e5 ∧ tableEntry t 4 (m.extractLsb' 24 8) = some e4 ∧
        tableEntry t 3 (m.extractLsb' 32 8) = some e3 ∧ tableEntry t 2 (m.extractLsb' 40 8) = some e2 ∧
        tableEntry t 1 (m.extractLsb' 48 8) = some e1 ∧ tableEntry t 0 (m.extractLsb' 56 8) = some e0 ∧
        fold8 t crc w = .ok (e7 ^^^ e6 ^^^ e5 ^^^ e4 ^^^ e3 ^^^ e2 ^^^ e1 ^^^ e0)) ∧
    (∀ c : Word, fold8 t c c = .ok 0) ∧
    (∀ c w c' w' : Word, c ^^^ w = c' ^^^ w' → fold8 t c w = fold8 t c' w') ∧
    fold8 t 0 0x3837363534333231 = .ok 0xD5A9388A5BEFFE4C

/-- 20_memory R43, R44: byte `i` of the wide read is the byte at `a + i`; the example. -/
def Obligations.WideReadIsLittleEndian : Prop :=
  (∀ (m : Memory) (a : Nat) (i : Fin 8), (memRead8 m a).extractLsb' (8 * i.val) 8 = memRead1 m (a + i.val)) ∧
  (∀ (m : Memory) (a : Nat), (List.range 8).map (fun i => memRead1 m (a + i)) = [0x31, 0x32, 0x33, 0x34, 0x35, 0x36, 0x37, 0x38] →
    memRead8 m a = 0x3837363534333231)

/-- 42_updater_slice8 R116: over a built table one word fold equals the eight byte folds of the same bytes. -/
def Obligations.WordFoldIsEightByteFolds : Prop :=
  ∀ t : Table, TableBuilt t → ∀ (crc : Word) (b0 b1 b2 b3 b4 b5 b6 b7 : Byte),
    fold8 t crc (b7 ++ b6 ++ b5 ++ b4 ++ b3 ++ b2 ++ b1 ++ b0 : Word) =
      ([b0, b1, b2, b3, b4, b5, b6, b7].foldlM (fold1 t) crc)

/-! ### UPDATE1 -/

/-- 41_updater_slice1 R101: out of range refused; else, with every byte admitted, the bytes are read one at a time,
ascending, folded in order, and the accumulator is the response; nothing else changes but what `ensure_built` does.
The port history and the mark are the model's own fields (log entries 5, 6). -/
def Obligations.Update1Responds : Prop :=
  ∀ (s : State) (crc : Word) (addr : Addr) (len : Len),
    (2 ^ Config.aw < addr.toNat + len.toNat →
      exec (.update1 crc addr len) s = .next { s with refusals := s.refusals ++ [.range] }) ∧
    (addr.toNat + len.toNat ≤ 2 ^ Config.aw → TableSound s →
      AdmitsAll s.denied (update1Reads addr.toNat len.toNat) →
      ∃ t, exec (.update1 crc addr len) s = .next t ∧
        Responded s t (update1Reads addr.toNat len.toNat) (crcUpdate crc (dmemBytes s.dmem addr.toNat len.toNat)))

/-- 41_updater_slice1 R102: with `len = 0` no byte is read and the response is `crc`, in every state; the table is
still built if it was not. -/
def Obligations.ZeroLengthIsIdentity : Prop :=
  ∀ (wide : Bool) (s : State) (crc : Word) (addr : Addr),
    ∃ t, exec (updateOp wide crc addr 0) s = .next t ∧ Responded s t [] crc

/-- 41_updater_slice1 R108: a byte fold is eight rounds of the accumulator with the byte xored in, and `UPDATE1`
responds what the table-free algorithm computes. -/
def Obligations.Update1IsBitSerialDivision : Prop :=
  (∀ t : Table, TableBuilt t → ∀ (crc : Word) (b : Byte), fold1 t crc b = .ok (polyRounds 8 (crc ^^^ b.setWidth 64))) ∧
  (∀ (s t : State) (crc c : Word) (addr : Addr) (len : Len), TableSound s →
    Replies (.update1 crc addr len) s c t → c = (dmemBytes s.dmem addr.toNat len.toNat).foldl serialFold crc)

/-- 41_updater_slice1 R109: linearity in the accumulator, and the example. -/
def Obligations.UpdateIsLinearInTheAccumulator : Prop :=
  (∀ (c d : Word) (bs : List Byte),
    crcUpdate (c ^^^ d) bs = crcUpdate c bs ^^^ crcUpdate d (List.replicate bs.length 0)) ∧
  (∀ (c : Word) (bs : List Byte),
    crcUpdate c bs = crcUpdate 0 bs ^^^ crcUpdate c (List.replicate bs.length 0)) ∧
  crcUpdate 0xFFFFFFFFFFFFFFFF [0x31, 0x32, 0x33, 0x34, 0x35, 0x36, 0x37, 0x38, 0x39] = 0x46F6A9388A5BEFFE ∧
  crcUpdate 0 [0x31, 0x32, 0x33, 0x34, 0x35, 0x36, 0x37, 0x38, 0x39] = 0x46A5A9388A5BEFFE ∧
  crcUpdate 0xFFFFFFFFFFFFFFFF (List.replicate 9 0) = 0x0053000000000000

/-! ### UPDATE8 -/

/-- 42_updater_slice8 R111 to R114, R118: out of range refused; else, with every read admitted at its width, the
reads are those of the three phases in order, and the response is what the three phases compute.
The port history and the mark are the model's own fields (log entries 5, 6). -/
def Obligations.Update8Responds : Prop :=
  ∀ (s : State) (crc : Word) (addr : Addr) (len : Len),
    (2 ^ Config.aw < addr.toNat + len.toNat →
      exec (.update8 crc addr len) s = .next { s with refusals := s.refusals ++ [.range] }) ∧
    (addr.toNat + len.toNat ≤ 2 ^ Config.aw → TableSound s →
      AdmitsAll s.denied (update8Reads addr.toNat len.toNat) →
      ∃ t, exec (.update8 crc addr len) s = .next t ∧
        Responded s t (update8Reads addr.toNat len.toNat) (phasesUpdate s.dmem crc addr.toNat len.toNat))

/-- 42_updater_slice8 R115: the two modes give the same response, for every `crc`, `addr`, `len` and content of DMEM
(range and admission as 20_memory R58 and R49 ask). -/
def Obligations.ModesAgree : Prop :=
  ∀ (s : State) (crc : Word) (addr : Addr) (len : Len), TableSound s →
    addr.toNat + len.toNat ≤ 2 ^ Config.aw →
    AdmitsAll s.denied (update1Reads addr.toNat len.toNat) → AdmitsAll s.denied (update8Reads addr.toNat len.toNat) →
    ∃ c t1 t8, Replies (.update1 crc addr len) s c t1 ∧ Replies (.update8 crc addr len) s c t8 ∧
      t8 = { t1 with trace := t8.trace }

/-- 42_updater_slice8 R111: the prologue ends aligned or with no bytes left, after `npro` byte folds. -/
def Obligations.PrologueReachesAlignment : Prop :=
  ∀ (s : State) (w w' : Work), w.consumed = 0 → phase1 s w = .ok w' →
    (w'.rem = 0 ∨ w'.pos % 8 = 0) ∧ w'.consumed = npro w.pos w.rem ∧ w'.pos = w.pos + npro w.pos w.rem ∧
      w'.rem = w.rem - npro w.pos w.rem ∧
      w'.reads = w.reads ++ (List.range (npro w.pos w.rem)).map (fun j => ⟨w.pos + j, .one⟩)

/-- 42_updater_slice8 R122: the prologue without the conjunct `consumed < 8` is the same, and at most 7 bytes are
consumed. -/
def Obligations.ConsumedNeverDecides : Prop :=
  ∀ (s : State) (w : Work), w.consumed = 0 →
    phase1 s w = whileLoop (fun w => decide (w.pos % 8 ≠ 0) && decide (0 < w.rem)) (prologueStep s) w.rem w ∧
    ∀ w', phase1 s w = .ok w' → w'.consumed ≤ 7

/-- 42_updater_slice8 R112, R113: the bulk phase folds whole words until fewer than 8 bytes remain and keeps the
alignment; the epilogue folds the rest. -/
def Obligations.BulkAndEpilogueConsume : Prop :=
  ∀ (s : State) (w w' : Work),
    (phase2 s w = .ok w' →
      w'.rem ≤ 7 ∧ w'.rem = w.rem % 8 ∧ w'.pos = w.pos + 8 * (w.rem / 8) ∧ w'.pos % 8 = w.pos % 8 ∧
      w'.reads = w.reads ++ (List.range (w.rem / 8)).map (fun j => ⟨w.pos + 8 * j, .eight⟩)) ∧
    (phase3 s w = .ok w' →
      w'.rem = 0 ∧ w'.pos = w.pos + w.rem ∧
      w'.reads = w.reads ++ (List.range w.rem).map (fun j => ⟨w.pos + j, .one⟩))

/-- 42_updater_slice8 R117: the counts of the three phases, read off the working values between them. -/
def Obligations.PhaseCounts : Prop :=
  ∀ (s : State) (crc : Word) (addr : Addr) (len : Len) (w1 w2 w3 : Work) (a n p b e : Nat),
    a = addr.toNat % 8 → n = len.toNat → p = min n ((8 - a) % 8) → b = (n - p) / 8 → e = (n - p) % 8 →
    phase1 s (startWork crc addr len) = .ok w1 → phase2 s w1 = .ok w2 → phase3 s w2 = .ok w3 →
    w1.reads.length = p ∧ w2.reads.length = p + b ∧ w3.reads.length = p + b + e ∧
    w1.rem = n - p ∧ w2.rem = e ∧ w3.rem = 0 ∧ p ≤ 7 ∧ e ≤ 7 ∧ p + 8 * b + e = n ∧
    (p < (8 - a) % 8 → b = 0 ∧ e = 0)

/-- 42_updater_slice8 R121: no word fold below 8 bytes, one possible at 8 aligned bytes, one certain from 15 bytes;
with no bytes no read. -/
def Obligations.ShortLengthsReadNoWord : Prop :=
  ∀ (s : State) (crc : Word) (addr : Addr) (len : Len), TableSound s →
    addr.toNat + len.toNat ≤ 2 ^ Config.aw → AdmitsAll s.denied (update8Reads addr.toNat len.toNat) →
    ∃ (c : Word) (t : State) (rs : List DmemRead), exec (.update8 crc addr len) s = .next t ∧ t.trace = s.trace ++ rs.map .read ++ [.respond (.value c)] ∧
      (len.toNat = 0 → rs = [] ∧ c = crc) ∧
      (len.toNat < 8 → rs.length = len.toNat ∧ ∀ r ∈ rs, r.width = .one) ∧
      (len.toNat = 8 → addr.toNat % 8 = 0 → rs = [⟨addr.toNat, .eight⟩]) ∧
      (15 ≤ len.toNat → ∃ r ∈ rs, r.width = .eight)

/-! ### Both updates -/

/-- 41_updater_slice1 R103, 42_updater_slice8 R123: for any split into chunks, any placement of the chunks and any
mode per chunk, threading the accumulator through gives the response of one `UPDATE1` over the whole sequence. -/
def Obligations.StreamsCompose : Prop :=
  ∀ (chunks : List (Bool × Addr × Len)) (s t : State) (crc c : Word) (addr : Addr) (len : Len), TableSound s →
    Stream chunks s crc c t →
    addr.toNat + len.toNat ≤ 2 ^ Config.aw → AdmitsAll s.denied (update1Reads addr.toNat len.toNat) →
    dmemBytes s.dmem addr.toNat len.toNat = streamBytes s.dmem chunks →
    ∃ t', Replies (.update1 crc addr len) s c t'

/-- 41_updater_slice1 R104, 20_memory R60: the response depends on `crc` and on the byte values only, not on `addr`,
not on the state or what happened before, and not on the mode. -/
def Obligations.ResponseDependsOnCrcAndBytesOnly : Prop :=
  ∀ (wide wide' : Bool) (s s' t t' : State) (crc c c' : Word) (addr addr' : Addr) (len len' : Len),
    TableSound s → TableSound s' →
    Replies (updateOp wide crc addr len) s c t → Replies (updateOp wide' crc addr' len') s' c' t' →
    dmemBytes s.dmem addr.toNat len.toNat = dmemBytes s'.dmem addr'.toNat len'.toNat → c = c'

/-- 20_memory R48, R47: an update reads every byte of its range exactly once, ascending, and no other; `UPDATE1` one
byte at a time. -/
def Obligations.UpdateReadsExactlyItsBytes : Prop :=
  ∀ (wide : Bool) (s : State) (crc : Word) (addr : Addr) (len : Len), TableSound s →
    addr.toNat + len.toNat ≤ 2 ^ Config.aw → AdmitsAll s.denied (updateReads wide addr len) →
    ∃ (c : Word) (t : State) (rs : List DmemRead), exec (updateOp wide crc addr len) s = .next t ∧
      t.trace = s.trace ++ rs.map .read ++ [.respond (.value c)] ∧
      rs.flatMap covered = (List.range len.toNat).map (addr.toNat + ·) ∧
      (wide = false → rs.length = len.toNat ∧ ∀ r ∈ rs, r.width = .one)

/-- 20_memory R45, R46, R49: in any state, what an operation adds to the port history are reads inside DMEM that the
platform admits, the 8-byte ones at multiples of 8; if it gets stuck, it is at a read not admitted.
The port history and the stuck read are the model's own fields (log entries 5, 7). -/
def Obligations.IssuedReadsAreAlignedAndAdmitted : Prop :=
  ∀ (i : Instr) (s t : State), exec i s = .next t →
    ∃ ev, t.trace = s.trace ++ ev ∧ (∀ r, .read r ∈ ev → ReadOk r ∧ admits s.denied r = true) ∧
      (t.stalled = s.stalled ∨ ∃ r, t.stalled = some r ∧ ReadOk r ∧ admits s.denied r = false)

/-- 20_memory R58: an update is refused exactly when `addr + len` exceeds `2^AW`; then nothing changes but the mark,
and under the precondition every byte read lies inside DMEM.
The mark is the model's own field (log entry 6). -/
def Obligations.RangePreconditionDecides : Prop :=
  ∀ (wide : Bool) (s : State) (crc : Word) (addr : Addr) (len : Len),
    (2 ^ Config.aw < addr.toNat + len.toNat →
      exec (updateOp wide crc addr len) s = .next { s with refusals := s.refusals ++ [.range] }) ∧
    (addr.toNat + len.toNat ≤ 2 ^ Config.aw → ∀ t, exec (updateOp wide crc addr len) s = .next t →
      t.refusals = s.refusals ∧
      ∃ ev, t.trace = s.trace ++ ev ∧
        ∀ r, .read r ∈ ev → ∀ x ∈ covered r, addr.toNat ≤ x ∧ x < addr.toNat + len.toNat)

/-- 20_memory R49, 60_exceptions R135: an update is stuck at its first read that is not admitted, after the reads
before it; it does not respond, and what its `ensure_built` did stays done.
The stuck read is the model's own field (log entry 7). -/
def Obligations.StuckAtFirstUnadmittedRead : Prop :=
  ∀ (wide : Bool) (s : State) (crc : Word) (addr : Addr) (len : Len) (before after : List DmemRead) (r : DmemRead),
    TableSound s → addr.toNat + len.toNat ≤ 2 ^ Config.aw →
    updateReads wide addr len = before ++ r :: after → AdmitsAll s.denied before → admits s.denied r = false →
    ∃ t, exec (updateOp wide crc addr len) s = .next t ∧ EngineBuilt s t ∧ HostSideKept s t ∧
      t.trace = s.trace ++ before.map .read ∧ t.refusals = s.refusals ∧ t.stalled = some r

/-- 41_updater_slice1 R106, 60_exceptions R137: with the flag clear, an accepted operation builds whatever its length
and whether or not it gets stuck; a range-refused update does not build.
That a stuck update and a refused one answer a next state is the model's form (log entries 7, 6): R135 and R134 give
them no step. -/
def Obligations.FirstOperationBuilds : Prop :=
  ∀ (i : Instr) (s : State), s.initFlag = false →
    (accepted i = true → ∃ t, exec i s = .next t ∧ t.initFlag = true ∧ TableBuilt t.table) ∧
    (accepted i = false → ∃ t, exec i s = .next t ∧ t.initFlag = false ∧ t.table = s.table)

/-! ### The whole machine -/

/-- 20_memory R41, R52: the frame of the three operations, in every state: DMEM reads as before at every address, the
admission and the host's coming moves are as before, the history only grows, a table built stays as it is; a refused
update leaves the engine alone and an accepted operation leaves the mark alone.
The next states of a stuck update and of a refused one are the model's form (log entries 7, 6). -/
def Obligations.OperationFrame : Prop :=
  ∀ (i : Instr) (s t : State), exec i s = .next t →
    HostSideKept s t ∧ (∀ a, memRead1 t.dmem a = memRead1 s.dmem a) ∧ (∃ ev, t.trace = s.trace ++ ev) ∧
    (s.initFlag = true → t.initFlag = true ∧ t.table = s.table) ∧
    (accepted i = true → t.refusals = s.refusals) ∧
    (accepted i = false → t.initFlag = s.initFlag ∧ t.table = s.table ∧ t.trace = s.trace ∧ t.stalled = s.stalled)

/-- 10_state R25: a step clears the flag only as a reset, and sets it only as a command that leaves the table built. -/
def Obligations.FlagChangesOnlyByBuildOrReset : Prop :=
  ∀ s t : State, step s = .next t →
    (s.initFlag = true → t.initFlag = false → ∃ rest, s.inputs = .reset :: rest) ∧
    (s.initFlag = false → t.initFlag = true → TableBuilt t.table ∧ ∃ w rest, s.inputs = .command w :: rest)

/-- 10_state R26, 20_memory R53: with the flag clear no accepted operation depends on what the table space holds. -/
def Obligations.UnbuiltTableIsNeverRead : Prop :=
  ∀ (i : Instr) (s : State) (t : Table), s.initFlag = false → accepted i = true →
    exec i { s with table := t } = exec i s

/-- 10_state R27, 42_updater_slice8 R124: two runs of an update that differ in the accumulator operand only issue the
same reads and leave the same state, but for the value of the response. -/
def Obligations.AccumulatorIsNotStored : Prop :=
  ∀ (wide : Bool) (s t t' : State) (crc crc' : Word) (addr : Addr) (len : Len),
    exec (updateOp wide crc addr len) s = .next t → exec (updateOp wide crc' addr len) s = .next t' →
    t = t' ∨ ∃ (rs : List DmemRead) (c c' : Word),
      t.trace = s.trace ++ rs.map .read ++ [.respond (.value c)] ∧
      t'.trace = s.trace ++ rs.map .read ++ [.respond (.value c')] ∧ t' = { t with trace := t'.trace }

/-- 30_encoding R64: an executed command responds exactly once, after its reads, `INIT` with the empty
acknowledgement and an update with a word; a refused one and a stuck one do not respond.
The port history and the stuck read are the model's own fields (log entries 5, 7). -/
def Obligations.ExactlyOneResponse : Prop :=
  ∀ (i : Instr) (s t : State), s.stalled = none → exec i s = .next t →
    ∃ rs : List DmemRead,
      (accepted i = false ∧ t.trace = s.trace ∧ t.stalled = none) ∨
      (accepted i = true ∧ t.stalled ≠ none ∧ t.trace = s.trace ++ rs.map .read) ∨
      (accepted i = true ∧ t.stalled = none ∧
        ∃ r : Response, t.trace = s.trace ++ rs.map .read ++ [.respond r] ∧ (r = .ack ↔ i = .init))

/-- 60_exceptions R131, R132: from a state that meets the invariant of 10_state R26 no operation and no step faults
or is left without a meaning.
The fault of an entry without a value is the model's (log entry 2).
That a stuck update and a refused command answer a next state too is the model's form (log entries 7, 6): R135 and
R134 give them no step. -/
def Obligations.NoOperationFaults : Prop :=
  ∀ s : State, TableSound s → (∀ i : Instr, ∃ t, exec i s = .next t) ∧ ∃ t, step s = .next t

/-- 60_exceptions R140, 70_reset_and_hazards R155: an operation in between, `INIT` or any update of another stream,
does not change what an update responds.
That a stuck or refused operation in between answers a next state is the model's form (log entries 7, 6). -/
def Obligations.StreamsDoNotDisturbEachOther : Prop :=
  ∀ (wide : Bool) (i : Instr) (s t u : State) (crc c : Word) (addr : Addr) (len : Len), TableSound s →
    exec i s = .next t → Replies (updateOp wide crc addr len) s c u →
    ∃ u', Replies (updateOp wide crc addr len) t c u'

/-- 70_reset_and_hazards R153: after a reset, the same operands get the same response, over a table that is built
again to the same values. -/
def Obligations.ResponseSurvivesReset : Prop :=
  ∀ (wide : Bool) (s t u : State) (crc c : Word) (addr : Addr) (len : Len) (rest : List HostInput), TableSound s →
    s.stalled = none → s.inputs = .reset :: rest → step s = .next t →
    Replies (updateOp wide crc addr len) s c u →
    ∃ u', Replies (updateOp wide crc addr len) t c u' ∧ u'.table = u.table

/-- The invariant holds right after reset.
That DMEM, the history and the stuck read are empty at reset is the model's choice (log entries 1, 5, 7). -/
def Obligations.InvariantHoldsAtReset : Prop := Inv State.reset

/-- Every step keeps the invariant: the table is built when the flag says so (10_state R26), DMEM is canonical, every
read issued is inside DMEM, aligned if wide, and admitted, and a stuck update waits for a read not admitted.
The history and the stuck read are the model's own fields (log entries 5, 7). -/
def Obligations.StepKeepsInvariant : Prop :=
  ∀ s t : State, Inv s → step s = .next t → Inv t
end

