-- ==== Sys2Proof/Laws/Format.lean ====
section
/-!
SUPPORT. Format `C` (30_encoding R62) bit by bit: which word of a command a bit stands in, and that each field of a command laid out from four words is the word it was laid out from.
-/

namespace Sys2Proof

/-- Bit `j` of a command stands in `len`, `addr`, `crc` or the op word, by its number (30_encoding R62). -/
theorem formatC_getLsbD (op crc : Word) (addr : Addr) (len : Len) (j : Nat) :
    (formatC op crc addr len).getLsbD j =
      if j < 64 then len.getLsbD j
      else if j - 64 < 64 then addr.getLsbD (j - 64)
      else if j - 64 - 64 < 64 then crc.getLsbD (j - 64 - 64)
      else op.getLsbD (j - 64 - 64 - 64) := by
  change BitVec.getLsbD (w := 64 + 64 + 64 + 64) (op ++ crc ++ addr ++ len) j = _
  rw [BitVec.getLsbD_append, BitVec.getLsbD_append, BitVec.getLsbD_append]

theorem cmdOpWord_formatC (op crc : Word) (addr : Addr) (len : Len) :
    cmdOpWord (formatC op crc addr len) = op := by
  apply BitVec.eq_of_getLsbD_eq
  intro j hj
  rw [cmdOpWord, BitVec.getLsbD_extractLsb', formatC_getLsbD, if_neg (by omega), if_neg (by omega),
    if_neg (by omega), show 192 + j - 64 - 64 - 64 = j by omega]
  simp only [hj, decide_true, Bool.true_and]

theorem cmdCrc_formatC (op crc : Word) (addr : Addr) (len : Len) : cmdCrc (formatC op crc addr len) = crc := by
  apply BitVec.eq_of_getLsbD_eq
  intro j hj
  rw [cmdCrc, BitVec.getLsbD_extractLsb', formatC_getLsbD, if_neg (by omega), if_neg (by omega),
    if_pos (by omega), show 128 + j - 64 - 64 = j by omega]
  simp only [hj, decide_true, Bool.true_and]

theorem cmdAddr_formatC (op crc : Word) (addr : Addr) (len : Len) : cmdAddr (formatC op crc addr len) = addr := by
  apply BitVec.eq_of_getLsbD_eq
  intro j hj
  rw [cmdAddr, BitVec.getLsbD_extractLsb', formatC_getLsbD, if_neg (by omega), if_pos (by omega),
    show 64 + j - 64 = j by omega]
  simp only [hj, decide_true, Bool.true_and]

theorem cmdLen_formatC (op crc : Word) (addr : Addr) (len : Len) : cmdLen (formatC op crc addr len) = len := by
  apply BitVec.eq_of_getLsbD_eq
  intro j hj
  rw [cmdLen, BitVec.getLsbD_extractLsb', formatC_getLsbD, if_pos (by omega), show 0 + j = j by omega]
  simp only [hj, decide_true, Bool.true_and]

/-- A command is its four words laid out: no bit of it stands outside the four fields. -/
theorem formatC_fields (w : Command) : formatC (cmdOpWord w) (cmdCrc w) (cmdAddr w) (cmdLen w) = w := by
  apply BitVec.eq_of_getLsbD_eq
  intro j hj
  rw [formatC_getLsbD]
  unfold cmdOpWord cmdCrc cmdAddr cmdLen
  rw [BitVec.getLsbD_extractLsb', BitVec.getLsbD_extractLsb', BitVec.getLsbD_extractLsb',
    BitVec.getLsbD_extractLsb']
  split
  · rw [show 0 + j = j by omega]
    simp only [*, decide_true, Bool.true_and]
  · split
    · rw [show 64 + (j - 64) = j by omega]
      simp only [*, decide_true, Bool.true_and]
    · split
      · rw [show 128 + (j - 64 - 64) = j by omega]
        simp only [*, decide_true, Bool.true_and]
      · rw [show 192 + (j - 64 - 64 - 64) = j by omega]
        simp only [show j - 64 - 64 - 64 < 64 by omega, decide_true, Bool.true_and]

end Sys2Proof
end

