-- ==== Sys2Proof/Laws/State.lean ====
section
/-!
SUPPORT. The field lemmas of State: for each named update, what each field is afterwards. No later proof unfolds a record update.
-/

namespace Sys2Proof.Machine

/-! ### `logReads` -/

@[simp] theorem logReads_initFlag (rs : List DmemRead) (s : State) : (logReads rs s).initFlag = s.initFlag := rfl
@[simp] theorem logReads_table (rs : List DmemRead) (s : State) : (logReads rs s).table = s.table := rfl
@[simp] theorem logReads_dmem (rs : List DmemRead) (s : State) : (logReads rs s).dmem = s.dmem := rfl
@[simp] theorem logReads_denied (rs : List DmemRead) (s : State) : (logReads rs s).denied = s.denied := rfl
@[simp] theorem logReads_inputs (rs : List DmemRead) (s : State) : (logReads rs s).inputs = s.inputs := rfl
@[simp] theorem logReads_trace (rs : List DmemRead) (s : State) : (logReads rs s).trace = s.trace ++ rs.map .read := rfl
@[simp] theorem logReads_refusals (rs : List DmemRead) (s : State) : (logReads rs s).refusals = s.refusals := rfl
@[simp] theorem logReads_stalled (rs : List DmemRead) (s : State) : (logReads rs s).stalled = s.stalled := rfl

/-! ### `respond` -/

@[simp] theorem respond_initFlag (r : Response) (s : State) : (respond r s).initFlag = s.initFlag := rfl
@[simp] theorem respond_table (r : Response) (s : State) : (respond r s).table = s.table := rfl
@[simp] theorem respond_dmem (r : Response) (s : State) : (respond r s).dmem = s.dmem := rfl
@[simp] theorem respond_denied (r : Response) (s : State) : (respond r s).denied = s.denied := rfl
@[simp] theorem respond_inputs (r : Response) (s : State) : (respond r s).inputs = s.inputs := rfl
@[simp] theorem respond_trace (r : Response) (s : State) : (respond r s).trace = s.trace ++ [.respond r] := rfl
@[simp] theorem respond_refusals (r : Response) (s : State) : (respond r s).refusals = s.refusals := rfl
@[simp] theorem respond_stalled (r : Response) (s : State) : (respond r s).stalled = s.stalled := rfl

/-! ### `refuse` -/

@[simp] theorem refuse_initFlag (why : RefuseReason) (s : State) : (refuse why s).initFlag = s.initFlag := rfl
@[simp] theorem refuse_table (why : RefuseReason) (s : State) : (refuse why s).table = s.table := rfl
@[simp] theorem refuse_dmem (why : RefuseReason) (s : State) : (refuse why s).dmem = s.dmem := rfl
@[simp] theorem refuse_denied (why : RefuseReason) (s : State) : (refuse why s).denied = s.denied := rfl
@[simp] theorem refuse_inputs (why : RefuseReason) (s : State) : (refuse why s).inputs = s.inputs := rfl
@[simp] theorem refuse_trace (why : RefuseReason) (s : State) : (refuse why s).trace = s.trace := rfl
@[simp] theorem refuse_refusals (why : RefuseReason) (s : State) : (refuse why s).refusals = s.refusals ++ [why] := rfl
@[simp] theorem refuse_stalled (why : RefuseReason) (s : State) : (refuse why s).stalled = s.stalled := rfl

/-! ### `stall` -/

@[simp] theorem stall_initFlag (r : DmemRead) (s : State) : (stall r s).initFlag = s.initFlag := rfl
@[simp] theorem stall_table (r : DmemRead) (s : State) : (stall r s).table = s.table := rfl
@[simp] theorem stall_dmem (r : DmemRead) (s : State) : (stall r s).dmem = s.dmem := rfl
@[simp] theorem stall_denied (r : DmemRead) (s : State) : (stall r s).denied = s.denied := rfl
@[simp] theorem stall_inputs (r : DmemRead) (s : State) : (stall r s).inputs = s.inputs := rfl
@[simp] theorem stall_trace (r : DmemRead) (s : State) : (stall r s).trace = s.trace := rfl
@[simp] theorem stall_refusals (r : DmemRead) (s : State) : (stall r s).refusals = s.refusals := rfl
@[simp] theorem stall_stalled (r : DmemRead) (s : State) : (stall r s).stalled = some r := rfl

/-! ### `hostReset` -/

@[simp] theorem hostReset_initFlag (s : State) : (hostReset s).initFlag = false := rfl
@[simp] theorem hostReset_table (s : State) : (hostReset s).table = unbuiltTable := rfl
@[simp] theorem hostReset_dmem (s : State) : (hostReset s).dmem = s.dmem := rfl
@[simp] theorem hostReset_denied (s : State) : (hostReset s).denied = s.denied := rfl
@[simp] theorem hostReset_inputs (s : State) : (hostReset s).inputs = s.inputs := rfl
@[simp] theorem hostReset_trace (s : State) : (hostReset s).trace = s.trace := rfl
@[simp] theorem hostReset_refusals (s : State) : (hostReset s).refusals = s.refusals := rfl
@[simp] theorem hostReset_stalled (s : State) : (hostReset s).stalled = s.stalled := rfl

/-! ### `hostWrite` -/

@[simp] theorem hostWrite_initFlag (a : Addr) (b : Byte) (s : State) : (hostWrite a b s).initFlag = s.initFlag := rfl
@[simp] theorem hostWrite_table (a : Addr) (b : Byte) (s : State) : (hostWrite a b s).table = s.table := rfl
@[simp] theorem hostWrite_dmem (a : Addr) (b : Byte) (s : State) : (hostWrite a b s).dmem = memWrite s.dmem a.toNat b := rfl
@[simp] theorem hostWrite_denied (a : Addr) (b : Byte) (s : State) : (hostWrite a b s).denied = s.denied := rfl
@[simp] theorem hostWrite_inputs (a : Addr) (b : Byte) (s : State) : (hostWrite a b s).inputs = s.inputs := rfl
@[simp] theorem hostWrite_trace (a : Addr) (b : Byte) (s : State) : (hostWrite a b s).trace = s.trace := rfl
@[simp] theorem hostWrite_refusals (a : Addr) (b : Byte) (s : State) : (hostWrite a b s).refusals = s.refusals := rfl
@[simp] theorem hostWrite_stalled (a : Addr) (b : Byte) (s : State) : (hostWrite a b s).stalled = s.stalled := rfl

/-! ### `placeCommand` -/

@[simp] theorem placeCommand_initFlag (w : Command) (s : State) : (placeCommand w s).initFlag = s.initFlag := rfl
@[simp] theorem placeCommand_table (w : Command) (s : State) : (placeCommand w s).table = s.table := rfl
@[simp] theorem placeCommand_dmem (w : Command) (s : State) : (placeCommand w s).dmem = s.dmem := rfl
@[simp] theorem placeCommand_denied (w : Command) (s : State) : (placeCommand w s).denied = s.denied := rfl
@[simp] theorem placeCommand_inputs (w : Command) (s : State) : (placeCommand w s).inputs = .command w :: s.inputs := rfl
@[simp] theorem placeCommand_trace (w : Command) (s : State) : (placeCommand w s).trace = s.trace := rfl
@[simp] theorem placeCommand_refusals (w : Command) (s : State) : (placeCommand w s).refusals = s.refusals := rfl
@[simp] theorem placeCommand_stalled (w : Command) (s : State) : (placeCommand w s).stalled = none := rfl

/-! ### `setInitFlag` -/

@[simp] theorem setInitFlag_initFlag (s : State) : (setInitFlag s).initFlag = true := rfl
@[simp] theorem setInitFlag_table (s : State) : (setInitFlag s).table = s.table := rfl
@[simp] theorem setInitFlag_dmem (s : State) : (setInitFlag s).dmem = s.dmem := rfl
@[simp] theorem setInitFlag_denied (s : State) : (setInitFlag s).denied = s.denied := rfl
@[simp] theorem setInitFlag_inputs (s : State) : (setInitFlag s).inputs = s.inputs := rfl
@[simp] theorem setInitFlag_trace (s : State) : (setInitFlag s).trace = s.trace := rfl
@[simp] theorem setInitFlag_refusals (s : State) : (setInitFlag s).refusals = s.refusals := rfl
@[simp] theorem setInitFlag_stalled (s : State) : (setInitFlag s).stalled = s.stalled := rfl

/-! ### `build` -/

@[simp] theorem build_initFlag (s : State) : (build s).initFlag = true := rfl
@[simp] theorem build_table (s : State) : (build s).table = buildSliceTables (buildBaseTable s.table) := rfl
@[simp] theorem build_dmem (s : State) : (build s).dmem = s.dmem := rfl
@[simp] theorem build_denied (s : State) : (build s).denied = s.denied := rfl
@[simp] theorem build_inputs (s : State) : (build s).inputs = s.inputs := rfl
@[simp] theorem build_trace (s : State) : (build s).trace = s.trace := rfl
@[simp] theorem build_refusals (s : State) : (build s).refusals = s.refusals := rfl
@[simp] theorem build_stalled (s : State) : (build s).stalled = s.stalled := rfl

/-! ### `ensureBuilt` -/

theorem ensureBuilt_of_flag {s : State} (h : s.initFlag = true) : ensureBuilt s = s := by
  simp [ensureBuilt, initFlagClear, h]

theorem ensureBuilt_of_clear {s : State} (h : s.initFlag = false) : ensureBuilt s = build s := by
  simp [ensureBuilt, initFlagClear, h]

@[simp] theorem ensureBuilt_initFlag (s : State) : (ensureBuilt s).initFlag = true := by
  cases h : s.initFlag <;> simp [ensureBuilt, initFlagClear, h]
@[simp] theorem ensureBuilt_dmem (s : State) : (ensureBuilt s).dmem = s.dmem := by
  cases h : s.initFlag <;> simp [ensureBuilt, initFlagClear, h]
@[simp] theorem ensureBuilt_denied (s : State) : (ensureBuilt s).denied = s.denied := by
  cases h : s.initFlag <;> simp [ensureBuilt, initFlagClear, h]
@[simp] theorem ensureBuilt_inputs (s : State) : (ensureBuilt s).inputs = s.inputs := by
  cases h : s.initFlag <;> simp [ensureBuilt, initFlagClear, h]
@[simp] theorem ensureBuilt_trace (s : State) : (ensureBuilt s).trace = s.trace := by
  cases h : s.initFlag <;> simp [ensureBuilt, initFlagClear, h]
@[simp] theorem ensureBuilt_refusals (s : State) : (ensureBuilt s).refusals = s.refusals := by
  cases h : s.initFlag <;> simp [ensureBuilt, initFlagClear, h]
@[simp] theorem ensureBuilt_stalled (s : State) : (ensureBuilt s).stalled = s.stalled := by
  cases h : s.initFlag <;> simp [ensureBuilt, initFlagClear, h]

end Sys2Proof.Machine
end

