-- ==== Sys2Proof/Laws/Table.lean ====
section
/-!
SUPPORT. Table access (20_memory R40) and the build (40_table_builder R82 to R84): what a row write does to each entry, and the table that `ensureBuilt` leaves.
-/

namespace Sys2Proof.Machine

theorem tableEntry_unbuilt (k : Fin 8) (n : Byte) : tableEntry unbuiltTable k n = none := by
  simp [tableEntry, unbuiltTable]

theorem tableEntry_setRow_same (t : Table) (k : Fin 8) (f : Byte → Option Word) (n : Byte) :
    tableEntry (tableSetRow t k f) k n = f n := by
  simp [tableEntry, tableSetRow]

theorem tableEntry_setRow_other {t : Table} {k k' : Fin 8} {f : Byte → Option Word} {n : Byte} (h : k ≠ k') :
    tableEntry (tableSetRow t k f) k' n = tableEntry t k' n := by
  have : k.val ≠ k'.val := fun e => h (Fin.ext e)
  simp [tableEntry, tableSetRow, Vector.getElem_set_ne, this]

theorem table_ext {t u : Table} (h : ∀ k n, tableEntry t k n = tableEntry u k n) : t = u := by
  apply Vector.ext
  intro i hi
  apply Vector.ext
  intro j hj
  have := h ⟨i, hi⟩ (BitVec.ofFin ⟨j, hj⟩)
  simpa [tableEntry] using this

theorem readEntry_of_built {t : Table} (h : TableBuilt t) (k : Fin 8) (n : Byte) :
    readEntry t k n = .ok (tableValue k.val n) := by
  simp [readEntry, h k n]

/-- The rows up to `k` hold their values of 10_state R24. -/
def RowsBuilt (t : Table) (k : Nat) : Prop :=
  ∀ (j : Fin 8) (n : Byte), j.val ≤ k → tableEntry t j n = some (tableValue j.val n)

theorem rowsBuilt_base (t : Table) : RowsBuilt (buildBaseTable t) 0 := by
  intro j n hj
  have : j = 0 := Fin.ext (by simpa using hj)
  subst this
  exact tableEntry_setRow_same _ _ _ _

theorem rowsBuilt_step {t : Table} {k : Nat} (h : RowsBuilt t k) (j : Fin 8) (hj : j.val = k + 1) :
    RowsBuilt (buildSliceRow t j) (k + 1) := by
  intro i n hi
  by_cases hij : j = i
  · subst hij
    have hp : (j - 1).val = k := by
      have := j.isLt
      simp only [Fin.sub_def]
      simp only [Fin.val_one]
      omega
    rw [buildSliceRow, tableEntry_setRow_same, sliceEntry, h (j - 1) n (by omega), hp]
    simp [h 0 _ (by simp), hj, tableValue]
  · rw [buildSliceRow, tableEntry_setRow_other hij]
    refine h i n ?_
    have : j.val ≠ i.val := fun e => hij (Fin.ext e)
    omega

/-- The build leaves every entry at its value of 10_state R24, whatever the table held before. -/
theorem buildTables_built (t : Table) : TableBuilt (buildSliceTables (buildBaseTable t)) := by
  have h1 := rowsBuilt_step (rowsBuilt_base t) 1 rfl
  have h2 := rowsBuilt_step h1 2 rfl
  have h3 := rowsBuilt_step h2 3 rfl
  have h4 := rowsBuilt_step h3 4 rfl
  have h5 := rowsBuilt_step h4 5 rfl
  have h6 := rowsBuilt_step h5 6 rfl
  have h7 := rowsBuilt_step h6 7 rfl
  intro k n
  exact h7 k n (by omega)

/-- All that `ensureBuilt` does (40_table_builder R84). -/
theorem ensureBuilt_engine (s : State) : EngineBuilt s (ensureBuilt s) where
  flag := ensureBuilt_initFlag s
  kept h := by rw [ensureBuilt_of_flag h]
  built h := by rw [ensureBuilt_of_clear h]; exact buildTables_built _

theorem ensureBuilt_built {s : State} (h : TableSound s) : TableBuilt (ensureBuilt s).table := by
  cases hf : s.initFlag with
  | false => exact (ensureBuilt_engine s).built hf
  | true => rw [(ensureBuilt_engine s).kept hf]; exact h hf

end Sys2Proof.Machine
end

