-- ==== Sys2Proof/Laws/Loops.lean ====
section
/-!
SUPPORT. What the shared operations of an update can do, each said once: a request, a byte step, a word step, a loop, the end of an update, a move of the host. Later proofs cite these and unfold none of them.
-/

namespace Sys2Proof.Machine

/-! ### One request and one fold -/

theorem issueRead_cases (s : State) (r : DmemRead) (w : Work) :
    (admits s.denied r = true ∧ issueRead s r w = .ok { w with reads := w.reads ++ [r] }) ∨
      (admits s.denied r = false ∧ issueRead s r w = .error (.stuck r w.reads)) := by
  cases h : admits s.denied r <;> simp [issueRead, h]

/-- All that a byte step can do: a fold after an admitted read, stuck at a read that is not admitted, or the fault of
an entry without a value. -/
theorem byteStep_cases (s : State) (w : Work) :
    (admits s.denied ⟨w.pos, .one⟩ = true ∧ ∃ c, fold1 s.table w.crc (memRead1 s.dmem w.pos) = .ok c ∧
      byteStep s w = .ok { w with crc := c, pos := w.pos + 1, rem := w.rem - 1, reads := w.reads ++ [⟨w.pos, .one⟩] }) ∨
    (admits s.denied ⟨w.pos, .one⟩ = false ∧ byteStep s w = .error (.stuck ⟨w.pos, .one⟩ w.reads)) ∨
    (admits s.denied ⟨w.pos, .one⟩ = true ∧ ∃ f, fold1 s.table w.crc (memRead1 s.dmem w.pos) = .error f ∧
      byteStep s w = .error (.fault f)) := by
  rcases issueRead_cases s ⟨w.pos, .one⟩ w with ⟨ha, hi⟩ | ⟨ha, hi⟩
  · cases hf : fold1 s.table w.crc (memRead1 s.dmem w.pos) with
    | ok c => exact .inl ⟨ha, c, rfl, by simp [byteStep, hi, Except.bind, hf, advance]⟩
    | error f => exact .inr (.inr ⟨ha, f, rfl, by simp [byteStep, hi, Except.bind, hf, advance]⟩)
  · exact .inr (.inl ⟨ha, by simp [byteStep, hi, Except.bind]⟩)

/-- All that a word step can do. -/
theorem wordStep_cases (s : State) (w : Work) :
    (admits s.denied ⟨w.pos, .eight⟩ = true ∧ ∃ c, fold8 s.table w.crc (memRead8 s.dmem w.pos) = .ok c ∧
      wordStep s w = .ok { w with crc := c, pos := w.pos + 8, rem := w.rem - 8, reads := w.reads ++ [⟨w.pos, .eight⟩] }) ∨
    (admits s.denied ⟨w.pos, .eight⟩ = false ∧ wordStep s w = .error (.stuck ⟨w.pos, .eight⟩ w.reads)) ∨
    (admits s.denied ⟨w.pos, .eight⟩ = true ∧ ∃ f, fold8 s.table w.crc (memRead8 s.dmem w.pos) = .error f ∧
      wordStep s w = .error (.fault f)) := by
  rcases issueRead_cases s ⟨w.pos, .eight⟩ w with ⟨ha, hi⟩ | ⟨ha, hi⟩
  · cases hf : fold8 s.table w.crc (memRead8 s.dmem w.pos) with
    | ok c => exact .inl ⟨ha, c, rfl, by simp [wordStep, hi, Except.bind, hf, advance]⟩
    | error f => exact .inr (.inr ⟨ha, f, rfl, by simp [wordStep, hi, Except.bind, hf, advance]⟩)
  · exact .inr (.inl ⟨ha, by simp [wordStep, hi, Except.bind]⟩)

/-- Over a built table a byte fold has the value of `byteFold` (41_updater_slice1 R100). -/
theorem fold1_of_built {t : Table} (h : TableBuilt t) (crc : Word) (b : Byte) :
    fold1 t crc b = .ok (byteFold crc b) := by
  simp [fold1, readEntry_of_built h, byteFold, Except.map, tableValue]

/-! ### Loops -/

section Loop

variable {cond : Work → Bool} {body : Work → Except Halt Work}

theorem whileLoop_zero (w : Work) : whileLoop cond body 0 w = .ok w := rfl

theorem whileLoop_stop {w : Work} (h : cond w = false) (n : Nat) : whileLoop cond body n w = .ok w := by
  cases n <;> simp [whileLoop, h]

theorem whileLoop_turn {w w' : Work} (h : cond w = true) (hb : body w = .ok w') (n : Nat) :
    whileLoop cond body (n + 1) w = whileLoop cond body n w' := by
  simp [whileLoop, h, hb]

theorem whileLoop_halt {w : Work} {x : Halt} (h : cond w = true) (hb : body w = .error x) (n : Nat) :
    whileLoop cond body (n + 1) w = .error x := by
  simp [whileLoop, h, hb]

/-- What every turn keeps holds at the end of the loop. -/
theorem whileLoop_keeps {P : Work → Prop} (keep : ∀ w w', P w → cond w = true → body w = .ok w' → P w') :
    ∀ (n : Nat) {w w' : Work}, P w → whileLoop cond body n w = .ok w' → P w' := by
  intro n
  induction n with
  | zero => intro w w' hw h; rw [whileLoop_zero] at h; cases h; exact hw
  | succ n ih =>
    intro w w' hw h
    cases hc : cond w with
    | false => rw [whileLoop_stop hc] at h; cases h; exact hw
    | true =>
      cases hb : body w with
      | ok w1 => rw [whileLoop_turn hc hb] at h; exact ih (keep w w1 hw hc hb) h
      | error x => rw [whileLoop_halt hc hb] at h; cases h

/-- A loop that halts does so in a turn that starts in working values which the turns before have kept. -/
theorem whileLoop_halts_in {P : Work → Prop} (keep : ∀ w w', P w → cond w = true → body w = .ok w' → P w') :
    ∀ (n : Nat) {w : Work} {x : Halt}, P w → whileLoop cond body n w = .error x →
      ∃ w', P w' ∧ cond w' = true ∧ body w' = .error x := by
  intro n
  induction n with
  | zero => intro w x _ h; rw [whileLoop_zero] at h; cases h
  | succ n ih =>
    intro w x hw h
    cases hc : cond w with
    | false => rw [whileLoop_stop hc] at h; cases h
    | true =>
      cases hb : body w with
      | ok w1 => rw [whileLoop_turn hc hb] at h; exact ih (keep w w1 hw hc hb) h
      | error y => rw [whileLoop_halt hc hb] at h; cases h; exact ⟨w, hw, hc, hb⟩

/-- A loop whose every turn uses up some of `rem` ends because its condition fails (70_reset_and_hazards R162). -/
theorem whileLoop_exit (dec : ∀ w w', cond w = true → body w = .ok w' → w'.rem < w.rem)
    (some_left : ∀ w, cond w = true → 0 < w.rem) :
    ∀ (n : Nat) {w w' : Work}, w.rem ≤ n → whileLoop cond body n w = .ok w' → cond w' = false := by
  intro n
  induction n with
  | zero =>
    intro w w' hn h
    rw [whileLoop_zero] at h
    cases h
    cases hc : cond w with
    | false => rfl
    | true => have := some_left w hc; omega
  | succ n ih =>
    intro w w' hn h
    cases hc : cond w with
    | false => rw [whileLoop_stop hc] at h; cases h; exact hc
    | true =>
      cases hb : body w with
      | ok w1 =>
        rw [whileLoop_turn hc hb] at h
        have := dec w w1 hc hb
        exact ih (by omega) h
      | error x => rw [whileLoop_halt hc hb] at h; cases h

end Loop

/-! ### The end of an update, and a move of the host -/

/-- All that the end of an update can be when it answers a next state. -/
theorem finishUpdate_next {s t : State} {r : Except Halt Work} (h : finishUpdate s r = .next t) :
    (∃ w, r = .ok w ∧ t = respond (.value w.crc) (logReads w.reads s)) ∨
      ∃ x rs, r = .error (.stuck x rs) ∧ t = stall x (logReads rs s) := by
  cases r with
  | ok w => simp only [finishUpdate, Host.Outcome.next.injEq] at h; exact .inl ⟨w, rfl, h.symm⟩
  | error e =>
    cases e with
    | stuck x rs => simp only [finishUpdate, Host.Outcome.next.injEq] at h; exact .inr ⟨x, rs, rfl, h.symm⟩
    | fault f => simp [finishUpdate] at h

/-- All that the next move of the host can be. -/
theorem takeMove_cases (s : State) :
    (takeMove s = .settled s ∧ (s.stalled ≠ none ∨ s.inputs = [])) ∨
    (∃ w rest, s.inputs = .command w :: rest ∧ takeMove s = takeCommand w { s with inputs := rest }) ∨
    (∃ rest, s.inputs = .reset :: rest ∧ takeMove s = .settled (hostReset { s with inputs := rest })) ∨
    (∃ a b rest, s.inputs = .write a b :: rest ∧ takeMove s = .settled (hostWrite a b { s with inputs := rest })) := by
  cases hs : s.stalled with
  | some r => exact .inl ⟨by simp [takeMove, hs], .inl (by simp)⟩
  | none =>
    cases hi : s.inputs with
    | nil => exact .inl ⟨by simp [takeMove, hs, hi], .inr rfl⟩
    | cons m rest =>
      cases m with
      | command w => exact .inr (.inl ⟨w, rest, rfl, by simp [takeMove, hs, hi]⟩)
      | reset => exact .inr (.inr (.inl ⟨rest, rfl, by simp [takeMove, hs, hi]⟩))
      | write a b => exact .inr (.inr (.inr ⟨a, b, rest, rfl, by simp [takeMove, hs, hi]⟩))

end Sys2Proof.Machine
end

