-- ==== Sys2Proof/Laws/Memory.lean ====
section
/-!
SUPPORT. The data memory: the canonical form is kept by every operation that writes it, a read after a write to the same address gives the byte written, and a write leaves every other address alone (20_memory R41, R42); the eight-byte read is made of eight byte reads (R43, R44).
-/

namespace Sys2Proof.Machine

@[simp] theorem memRead1_nil (a : Nat) : memRead1 [] a = Config.unlistedByte := rfl

theorem memRead1_cons (k : Nat) (b : Byte) (rest : Memory) (a : Nat) :
    memRead1 ((k, b) :: rest) a = if k = a then b else memRead1 rest a := rfl

/-- An address below every listed one reads as an unlisted byte. -/
theorem memRead1_of_lt {m : Memory} {a : Nat} (h : ∀ c ∈ m, a < c.1) :
    memRead1 m a = Config.unlistedByte := by
  induction m with
  | nil => rfl
  | cons c rest ih =>
    obtain ⟨k, b⟩ := c
    have hk : a < k := h (k, b) (by simp)
    rw [memRead1_cons, if_neg (by omega)]
    exact ih fun c hc => h c (by simp [hc])

theorem memRead1_memCons (a : Nat) (b : Byte) (rest : Memory) (x : Nat)
    (h : ∀ c ∈ rest, a < c.1) :
    memRead1 (memCons a b rest) x = if a = x then b else memRead1 rest x := by
  unfold memCons
  split
  next hb =>
    split
    next hx => subst hx; rw [memRead1_of_lt h, hb]
    next => rfl
  next => rfl

/-- Read after write (20_memory R41, R42): the byte written at its address, every other byte as before. -/
theorem memRead1_memWrite {m : Memory} (hs : m.Pairwise fun c d => c.1 < d.1) (a : Nat) (b : Byte) (x : Nat) :
    memRead1 (memWrite m a b) x = if a = x then b else memRead1 m x := by
  induction m with
  | nil => rw [memWrite, memRead1_memCons _ _ _ _ (by simp)]
  | cons c rest ih =>
    obtain ⟨k, v⟩ := c
    obtain ⟨hk, hrest⟩ := List.pairwise_cons.mp hs
    unfold memWrite
    split
    next hlt =>
      rw [memRead1_memCons]
      intro c hc
      rcases List.mem_cons.mp hc with rfl | hc
      · exact hlt
      · have := hk c hc; simp only at this; omega
    next hge =>
      split
      next heq =>
        subst heq
        rw [memRead1_memCons _ _ _ _ (by simpa using hk), memRead1_cons]
        split <;> simp_all
      next hne =>
        rw [memRead1_cons, memRead1_cons, ih hrest]
        split
        next hx => rw [if_neg (by omega)]
        next => rfl

theorem mem_memWrite {m : Memory} {a : Nat} {b : Byte} {c : Host.Cell} (h : c ∈ memWrite m a b) :
    (c = (a, b) ∧ b ≠ Config.unlistedByte) ∨ c ∈ m := by
  induction m with
  | nil => unfold memWrite memCons at h; split at h <;> simp_all
  | cons d rest ih =>
    obtain ⟨k, v⟩ := d
    unfold memWrite memCons at h
    split at h
    · split at h <;> simp_all
    · split at h
      · split at h
        · simp_all
        · simp_all; tauto
      · rcases List.mem_cons.mp h with rfl | h
        · simp
        · rcases ih h with h | h <;> simp [h]

theorem pairwise_memCons {rest : Memory} {a : Nat} {b : Byte} (hs : rest.Pairwise fun c d => c.1 < d.1)
    (h : ∀ c ∈ rest, a < c.1) : (memCons a b rest).Pairwise fun c d => c.1 < d.1 := by
  unfold memCons
  split
  · exact hs
  · exact List.pairwise_cons.mpr ⟨h, hs⟩

theorem pairwise_memWrite {m : Memory} (hs : m.Pairwise fun c d => c.1 < d.1) (a : Nat) (b : Byte) :
    (memWrite m a b).Pairwise fun c d => c.1 < d.1 := by
  induction m with
  | nil => exact pairwise_memCons List.Pairwise.nil (by simp)
  | cons c rest ih =>
    obtain ⟨k, v⟩ := c
    obtain ⟨hk, hrest⟩ := List.pairwise_cons.mp hs
    unfold memWrite
    split
    next hlt =>
      refine pairwise_memCons hs fun c hc => ?_
      rcases List.mem_cons.mp hc with rfl | hc
      · exact hlt
      · have := hk c hc; simp only at this; omega
    next hge =>
      split
      next heq => exact pairwise_memCons hrest (by subst heq; simpa using hk)
      next hne =>
        refine List.pairwise_cons.mpr ⟨fun c hc => ?_, ih hrest⟩
        rcases mem_memWrite hc with ⟨rfl, -⟩ | hc
        · simp only; omega
        · exact hk c hc

/-- The only operation that writes DMEM keeps its canonical form. -/
theorem memWrite_wf {m : Memory} (h : Memory.wf m) (a : Addr) (b : Byte) : Memory.wf (memWrite m a.toNat b) := by
  refine ⟨pairwise_memWrite h.1 _ _, fun c hc => ?_⟩
  rcases mem_memWrite hc with ⟨rfl, hb⟩ | hc
  · exact ⟨a.isLt, hb⟩
  · exact h.2 c hc

/-- The memory of the reset state is in its canonical form. -/
theorem reset_memory_wf : Memory.wf State.reset.dmem := ⟨List.Pairwise.nil, by simp [State.reset]⟩

end Sys2Proof.Machine
end

