-- ==== Sys2Proof/Laws/PerInstr.lean ====
section
/-!
SUPPORT. The family of statements made per instruction: `EncodesRow`, the command of an operation meets its row of the opcode table.
-/

namespace Sys2Proof

/-- The mask of every row of the opcode table: all of the op word, none of the operand words (30_encoding R63). -/
def Laws.EncodesRow.mask : Command := 0xFFFFFFFFFFFFFFFF000000000000000000000000000000000000000000000000

/-- The match of an operation's row (30_encoding R63). -/
def Laws.EncodesRow.rowMatch : Instr → Command
  | .init => 0x0000000000000000000000000000000000000000000000000000000000000000
  | .update1 _ _ _ => 0x0000000000000001000000000000000000000000000000000000000000000000
  | .update8 _ _ _ => 0x0000000000000002000000000000000000000000000000000000000000000000

/-- The command of the operation, whatever its operands, has the bits that its row of the opcode table fixes. -/
def Laws.EncodesRow.Statement (i : Instr) : Prop :=
  encode i &&& Laws.EncodesRow.mask = Laws.EncodesRow.rowMatch i

/-- Under the mask only the op word of format `C` is left. -/
theorem formatC_and_mask (op crc : Word) (addr : Addr) (len : Len) :
    formatC op crc addr len &&& Laws.EncodesRow.mask = formatC op 0 0 0 := by
  have h : Laws.EncodesRow.mask = formatC (BitVec.allOnes 64) 0 0 0 := by decide
  apply BitVec.eq_of_getLsbD_eq
  intro j hj
  rw [h, BitVec.getLsbD_and, formatC_getLsbD, formatC_getLsbD, formatC_getLsbD]
  have h3 : j - 64 - 64 - 64 < 64 := by omega
  split
  · simp
  · split
    · simp
    · split
      · simp
      · simp only [BitVec.getLsbD_allOnes, h3, decide_true, Bool.and_true]

theorem Laws.EncodesRow.init : Laws.EncodesRow.Statement .init :=
  (formatC_and_mask 0 0 0 0).trans (by decide)

theorem Laws.EncodesRow.update1 (crc : Word) (addr : Addr) (len : Len) :
    Laws.EncodesRow.Statement (.update1 crc addr len) :=
  (formatC_and_mask 1 crc addr len).trans (show formatC 1 0 0 0 = 0x0000000000000001000000000000000000000000000000000000000000000000 by decide)

theorem Laws.EncodesRow.update8 (crc : Word) (addr : Addr) (len : Len) :
    Laws.EncodesRow.Statement (.update8 crc addr len) :=
  (formatC_and_mask 2 crc addr len).trans (show formatC 2 0 0 0 = 0x0000000000000002000000000000000000000000000000000000000000000000 by decide)

end Sys2Proof
end

