-- ==== Sys2Proof/Tests/Slice0.lean ====
section
/-!
SUPPORT. The model's own tests, with expected results from 95_test_vectors, and one witness per statement that has hypotheses: a concrete state and operands that meet them.
-/

namespace Sys2Proof.Tests

open Sys2Proof Sys2Proof.Machine

/-! ### Helpers: small states, and what an outcome shows -/

/-- The host fills DMEM with bytes from an address upward. -/
def fill : Nat → List Byte → Memory → Memory
  | _, [], m => m
  | a, b :: bs, m => fill (a + 1) bs (memWrite m a b)

/-- The bytes of "123456789". -/
def digits : List Byte := [0x31, 0x32, 0x33, 0x34, 0x35, 0x36, 0x37, 0x38, 0x39]

/-- A fresh engine with bytes in DMEM from an address upward. -/
def fresh (a : Nat) (bs : List Byte) : State := { State.reset with dmem := fill a bs [] }

/-- A fresh engine with host moves pending. -/
def pending (inputs : List HostInput) : State := { State.reset with inputs := inputs }

/-- The platform of 95_test_vectors V7: it admits no 8-byte read at `0x1008`. -/
def refusingWide (s : State) : State := { s with denied := [⟨.eight, 0x1008, 0x1008⟩] }

/-- A built engine. -/
def built : State := build State.reset

/-- The next state, or the reset state where there is none. -/
def after : Host.Outcome State Fault Refusal → State
  | .next s => s
  | _ => State.reset

/-- The port history of the next state. -/
def history : Host.Outcome State Fault Refusal → Option (List PortEvent)
  | .next s => some s.trace
  | _ => none

/-- The flag, the length of the port history, the refusals and the stuck read of the next state. -/
def summary : Host.Outcome State Fault Refusal → Option (Bool × Nat × List RefuseReason × Option DmemRead)
  | .next s => some (s.initFlag, s.trace.length, s.refusals, s.stalled)
  | _ => none

/-- The working values a phase ends with. -/
def ended : Except Halt Work → Option Work
  | .ok w => some w
  | .error _ => none

theorem next_of_history {o : Host.Outcome State Fault Refusal} {ev : List PortEvent} (h : history o = some ev) :
    o = .next (after o) ∧ (after o).trace = ev := by
  cases o <;> simp_all [history, after]

theorem ok_of_ended {r : Except Halt Work} {w : Work} (h : ended r = some w) : r = .ok w := by
  cases r <;> simp_all [ended]

theorem replies_of_history {i : Instr} {s : State} {rs : List DmemRead} {c : Word}
    (h : history (exec i s) = some (s.trace ++ rs.map .read ++ [.respond (.value c)])) :
    Replies i s c (after (exec i s)) :=
  ⟨(next_of_history h).1, rs, (next_of_history h).2⟩

theorem fresh_sound (a : Nat) (bs : List Byte) : TableSound (fresh a bs) := nofun

theorem reset_sound : TableSound State.reset := nofun

theorem built_table : TableBuilt built.table := buildTables_built _

theorem admitsAll_of_none (rs : List DmemRead) : AdmitsAll [] rs := fun _ _ => rfl

/-! ### Well-formedness: each check refuses an ill-formed term (30_encoding R62, R68; 95 V7, `AW = LENW = 32`) -/

theorem test_wellFormed_at_64 :
    wellFormed .init = true ∧ wellFormed (.update1 0 0xFFFFFFFFFFFFFFFF 0xFFFFFFFFFFFFFFFF) = true ∧
      wellFormed (.update8 0 0xFFFFFFFFFFFFFFFF 0xFFFFFFFFFFFFFFFF) = true := by decide

theorem test_illFormed_addr :
    wellFormedAt 32 32 (.update1 0 0x100000000 0) = false ∧ wellFormedAt 32 32 (.update8 0 0x100000000 0) = false := by
  decide

theorem test_illFormed_len :
    wellFormedAt 32 32 (.update1 0 0 0x100000000) = false ∧ wellFormedAt 32 32 (.update8 0 0 0x100000000) = false := by
  decide

/-- 95 V7: with `AW = 32`, `0xFFFFFFFF + 1` is in range, one byte more is not. -/
theorem test_range_at_32 : inRange 32 0xFFFFFFFF 1 = true ∧ inRange 32 0xFFFFFFFF 2 = false := by decide

/-- 95 V7 lines 6 and 5: `2^64` is in range, `2^64 + 1` is not. -/
theorem test_range_at_64 :
    inRange Config.aw 0xFFFFFFFFFFFFFFF8 8 = true ∧ inRange Config.aw 0xFFFFFFFFFFFFFFF8 9 = false := by decide

/-! ### Decoding: words written out in 95_test_vectors (P1, P2, P3, V7) -/

theorem test_decode_init :
    decode 0x0000000000000000000000000000000000000000000000000000000000000000 = .ok .init ∧
      decode 0x0000000000000000DEADBEEFDEADBEEF00000000000012340000000000005678 = .ok .init := by decide

theorem test_decode_update1 :
    decode 0x0000000000000001000000000000000000000000000010000000000000000009 = .ok (.update1 0 0x1000 9) ∧
      decode 0x000000000000000196C2D361B06FFFFF00000000000010080000000000000010 =
        .ok (.update1 0x96C2D361B06FFFFF 0x1008 16) := by decide

theorem test_decode_update8 :
    decode 0x000000000000000200000000000000000000000000002006000000000000002B = .ok (.update8 0 0x2006 43) ∧
      decode 0x0000000000000002FA3389F4F72294B00000000000001018000000000000000B =
        .ok (.update8 0xFA3389F4F72294B0 0x1018 11) := by decide

theorem test_decode_reserved :
    decode 0x0000000000000003000000000000000000000000000000000000000000000000 = .error .opWord ∧
      decode 0x0000000000000004000000000000000000000000000000000000000000000000 = .error .opWord ∧
      decode 0x8000000000000001000000000000000000000000000000000000000000000000 = .error .opWord := by decide

/-- The rows of the opcode table, as the host asks for them. -/
theorem test_decode_table_words :
    decodeTableWord 256 0 = some .init ∧ decodeTableWord 256 (1 * 2 ^ 192) = some (.update1 0 0 0) ∧
      decodeTableWord 256 (2 * 2 ^ 192) = some (.update8 0 0 0) ∧ decodeTableWord 256 (3 * 2 ^ 192) = none := by decide

theorem test_encode :
    encode (.update1 0 0x1000 9) = 0x0000000000000001000000000000000000000000000010000000000000000009 ∧
      encode (.update8 0xFA3389F4F72294B0 0x1018 11) =
        0x0000000000000002FA3389F4F72294B00000000000001018000000000000000B := by decide

/-! ### The round, the table, the folds (95 V1, V3, V5) -/

/-- 95 V1, `n = 0x31`. -/
theorem test_round_trace :
    [1, 2, 3, 4, 5, 6, 7, 8].map (fun r => polyRounds r 0x31) =
      [0xD800000000000018, 0x6C0000000000000C, 0x3600000000000006, 0x1B00000000000003,
       0xD580000000000001, 0xB2C0000000000000, 0x5960000000000000, 0x2CB0000000000000] := by decide

/-- 95 V2: the sum of the 256 entries of row 0, modulo 2^64. -/
theorem test_row0_sum :
    (List.range 256).foldl (fun sum n => sum + tableValue 0 (BitVec.ofNat 8 n)) 0 = 0xF800000000000000 := by
  decide +kernel

/-- 95 V3, row 7. -/
theorem test_row7_entries :
    [0x00, 0x01, 0x02, 0x31, 0x5A, 0x80, 0xA7, 0xFF].map (tableValue 7) =
      [0, 0xF500000000000001, 0x5A00000000000003, 0xF50000000000002C, 0x8200000000000079, 0x00000000000000D8,
       0x1B000000000000EA, 0xC300000000000090] := by decide +kernel

/-- 95 V5, the second and third examples. -/
theorem test_wordFold :
    wordFold 0xFFFFFFFFFFFFFFFF 0x0807060504030201 = 0xAB8415A776C2D361 ∧
      wordFold 0x0123456789ABCDEF 0x8877665544332211 = 0xE241F4FEDE3E0B01 := by decide +kernel

/-! ### One step of each operation (95 P1, V4, V6, V7) -/

/-- 95 P1: from reset, `INIT` sets the flag, builds `TABLE[0][1]` and `TABLE[7][1]`, and acknowledges. -/
theorem test_init_builds :
    (after (exec .init State.reset)).initFlag = true ∧
      tableEntry (after (exec .init State.reset)).table 0 1 = some 0x01B0000000000000 ∧
      tableEntry (after (exec .init State.reset)).table 7 1 = some 0xF500000000000001 ∧
      (after (exec .init State.reset)).trace = [.respond .ack] := by decide +kernel

/-- 95 V7 line 10: an `INIT` with operand fields that are not 0 is executed. -/
theorem test_init_step :
    summary (step (pending
      [.command 0x0000000000000000DEADBEEFDEADBEEF00000000000012340000000000005678])) =
      some (true, 1, [], none) := by decide +kernel

/-- 95 V4: `UPDATE1 0, "123456789"@0x1000` on a fresh engine. -/
theorem test_update1_digits :
    history (exec (.update1 0 0x1000 9) (fresh 0x1000 digits)) =
      some ([0x1000, 0x1001, 0x1002, 0x1003, 0x1004, 0x1005, 0x1006, 0x1007, 0x1008].map (fun a => .read ⟨a, .one⟩) ++
        [.respond (.value 0x46A5A9388A5BEFFE)]) := by decide +kernel

/-- 95 V7 line 4: refused by range, not built, no read and no response. -/
theorem test_update1_range :
    summary (step (pending
      [.command 0x00000000000000010000000000000000FFFFFFFFFFFFFFFF0000000000000002])) =
      some (false, 0, [.range], none) := by decide +kernel

/-- 95 V6 trace 5: a prologue byte, then one word. -/
theorem test_update8_trace5 :
    history (exec (.update8 0 0x1007 9) (fresh 0x1007 digits)) =
      some [.read ⟨0x1007, .one⟩, .read ⟨0x1008, .eight⟩, .respond (.value 0x46A5A9388A5BEFFE)] := by decide +kernel

/-- 95 V6 trace 1: one word, then an epilogue byte. -/
theorem test_update8_trace1 :
    history (exec (.update8 0 0x1000 9) (fresh 0x1000 digits)) =
      some [.read ⟨0x1000, .eight⟩, .read ⟨0x1008, .one⟩, .respond (.value 0x46A5A9388A5BEFFE)] := by decide +kernel

/-- 95 P4: reset, between operations, clears the flag and every entry. -/
theorem test_reset_move :
    (after (step { built with inputs := [.reset] })).initFlag = false ∧
      (after (step { built with inputs := [.reset] })).table = unbuiltTable := ⟨rfl, rfl⟩

/-- Trace 5 as an update that replies. -/
theorem replies_trace5 : ∃ t, Replies (updateOp true 0 0x1007 9) (fresh 0x1007 digits) 0x46A5A9388A5BEFFE t :=
  ⟨_, replies_of_history (rs := [⟨0x1007, .one⟩, ⟨0x1008, .eight⟩]) test_update8_trace5⟩

/-! ### Witnesses: each statement's hypotheses are met together -/

theorem witness_DecodeEncodeAgree :
    wellFormedAt 32 32 (.update8 0xFFFFFFFFFFFFFFFF 0xFFFFFFFF 0xFFFFFFFF) = true ∧
      decodeAt 32 32 0x0000000000000001000000000000000000000000FFFFFFFF00000000FFFFFFFF =
        .ok (.update1 0 0xFFFFFFFF 0xFFFFFFFF) ∧
      decodeAt 32 32 0x0000000000000000DEADBEEFDEADBEEF00000000000012340000000000005678 = .ok .init := by decide

/-- One word for each clause, the widths at their boundary. -/
theorem witness_DecodingByOpWord :
    ((0x0000000000000000FFFFFFFFFFFFFFFFFFFFFFFFFFFFFFFFFFFFFFFFFFFFFFFF : Command).extractLsb' 192 64 = 0) ∧
    ((0x0000000000000001000000000000000000000000FFFFFFFF00000000FFFFFFFF : Command).extractLsb' 192 64 = 1 ∧
      ((0x0000000000000001000000000000000000000000FFFFFFFF00000000FFFFFFFF : Command).extractLsb' 64 64).toNat < 2 ^ 32 ∧
      ((0x0000000000000001000000000000000000000000FFFFFFFF00000000FFFFFFFF : Command).extractLsb' 0 64).toNat < 2 ^ 32) ∧
    ((0x0000000000000002000000000000000000000000FFFFFFFF00000000FFFFFFFF : Command).extractLsb' 192 64 = 2 ∧
      ((0x0000000000000002000000000000000000000000FFFFFFFF00000000FFFFFFFF : Command).extractLsb' 64 64).toNat < 2 ^ 32 ∧
      ((0x0000000000000002000000000000000000000000FFFFFFFF00000000FFFFFFFF : Command).extractLsb' 0 64).toNat < 2 ^ 32) ∧
    ((0x0000000000000001000000000000000000000001000000000000000000000000 : Command).extractLsb' 192 64 = 1 ∧
      2 ^ 32 ≤ ((0x0000000000000001000000000000000000000001000000000000000000000000 : Command).extractLsb' 64 64).toNat) ∧
    ((0x0000000000000002000000000000000000000000FFFFFFFF0000000100000000 : Command).extractLsb' 192 64 = 2 ∧
      ((0x0000000000000002000000000000000000000000FFFFFFFF0000000100000000 : Command).extractLsb' 64 64).toNat < 2 ^ 32 ∧
      2 ^ 32 ≤ ((0x0000000000000002000000000000000000000000FFFFFFFF0000000100000000 : Command).extractLsb' 0 64).toNat) ∧
    (0x0000000000000003000000000000000000000000000000000000000000000000 : Command).extractLsb' 192 64 = 3 := by decide

theorem witness_InitIgnoresItsOperandFields :
    (pending [.command 0x0000000000000000DEADBEEFDEADBEEF00000000000012340000000000005678]).stalled = none ∧
      (pending [.command 0x0000000000000000DEADBEEFDEADBEEF00000000000012340000000000005678]).inputs =
        .command 0x0000000000000000DEADBEEFDEADBEEF00000000000012340000000000005678 :: [] ∧
      (0x0000000000000000DEADBEEFDEADBEEF00000000000012340000000000005678 : Command).extractLsb' 192 64 = 0 :=
  ⟨rfl, rfl, by decide⟩

theorem witness_StepRunsTheDecodedCommand :
    ((pending [.command (encode (.update8 0 0x2006 43))]).stalled = none ∧
      (pending [.command (encode (.update8 0 0x2006 43))]).inputs = .command (encode (.update8 0 0x2006 43)) :: [] ∧
      decode (encode (.update8 0 0x2006 43)) = .ok (.update8 0 0x2006 43)) ∧
    decodeTableWord 256 (1 * 2 ^ 192) = some (.update1 0 0 0) := by decide

theorem witness_ReservedCommandIsRefused :
    (pending [.command (3 <<< 192)]).stalled = none ∧
      (pending [.command (3 <<< 192)]).inputs = .command (3 <<< 192) :: [] ∧
      decode (3 <<< 192) = .error .opWord := by decide

theorem witness_IdleEngineHoldsItsState : State.reset.inputs = [] := rfl

theorem witness_StuckEngineServesNothing :
    (after (exec (.update8 0 0x1005 12) (refusingWide State.reset))).stalled = some ⟨0x1008, .eight⟩ := by decide +kernel

theorem witness_ResetMoveResetsTheEngine :
    ({ built with inputs := [.reset] } : State).stalled = none ∧
      ({ built with inputs := [.reset] } : State).inputs = .reset :: [] := ⟨rfl, rfl⟩

theorem witness_HostWriteFillsOneByte :
    (pending [.write 0xFFFFFFFFFFFFFFFF 0x31]).stalled = none ∧
      (pending [.write 0xFFFFFFFFFFFFFFFF 0x31]).inputs = .write 0xFFFFFFFFFFFFFFFF 0x31 :: [] ∧
      Memory.wf (pending [.write 0xFFFFFFFFFFFFFFFF 0x31]).dmem := ⟨rfl, rfl, reset_memory_wf⟩

/-- Both clauses: the flag clear, and the flag set. -/
theorem witness_InitBuildsAndAcknowledges : State.reset.initFlag = false ∧ built.initFlag = true := ⟨rfl, rfl⟩

theorem witness_BuiltTableFollowsItsRecurrence :
    State.reset.initFlag = false ∧ exec .init State.reset = .next (respond .ack built) ∧
      (7 : Fin 8).val = (6 : Fin 8).val + 1 := ⟨rfl, rfl, rfl⟩

theorem witness_SecondInitIsNoOp :
    built.initFlag = true ∧ exec .init State.reset = .next (respond .ack built) := ⟨rfl, rfl⟩

/-- Two states with the flag clear whose table spaces hold different things. -/
theorem witness_BuildIsReproducible :
    State.reset.initFlag = false ∧ ({ built with initFlag := false } : State).initFlag = false ∧
      exec .init State.reset = .next (respond .ack (build State.reset)) ∧
      exec .init { built with initFlag := false } = .next (respond .ack (build { built with initFlag := false })) ∧
      tableEntry State.reset.table 0 0 ≠ tableEntry built.table 0 0 := by
  refine ⟨rfl, rfl, rfl, rfl, ?_⟩
  rw [show State.reset.table = unbuiltTable from rfl, tableEntry_unbuilt, built_table]
  exact nofun

/-- The premise of every statement about a built table: `BaseRowFacts`, `SliceRowFacts`, `ByteFoldIndexAndValue`,
`WordFoldLanesAndValue`, `WordFoldIsEightByteFolds`. -/
theorem witness_TableBuilt : ∃ t : Table, TableBuilt t := ⟨_, built_table⟩

/-- 95 V4: the one byte `61` from 0 responds `TABLE[0][0x61]`. -/
theorem witness_LookupReplacesEightRounds :
    TableSound (fresh 0x1000 [0x61]) ∧
      ∃ t, Replies (.update1 0 0x1000 1) (fresh 0x1000 [0x61]) 0x5BB0000000000000 t :=
  ⟨fresh_sound _ _, _, replies_of_history (rs := update1Reads 0x1000 1) (by decide +kernel)⟩

/-- The inner premises: the row bounds of `SliceRowFacts`, two pairs of one exclusive-or for `WordFoldLanesAndValue`. -/
theorem witness_SliceRowFacts_WordFold :
    (1 ≤ (1 : Fin 8).val ∧ (1 : Fin 8).val ≤ 6) ∧ (1 ≤ (6 : Fin 8).val ∧ (6 : Fin 8).val ≤ 6) ∧ (5 : Fin 8).val ≤ 5 ∧
      (0x0123456789ABCDEF : Word) ^^^ 0 = 0 ^^^ 0x0123456789ABCDEF := by decide

theorem witness_WideReadIsLittleEndian :
    (List.range 8).map (fun i => memRead1 (fill 0x1000 digits []) (0x1000 + i)) =
      [0x31, 0x32, 0x33, 0x34, 0x35, 0x36, 0x37, 0x38] := by decide

/-- 95 V7: the first sum that is refused, and the last that is in range with its one byte at the top of DMEM. -/
theorem witness_Update1Responds :
    2 ^ Config.aw < (0xFFFFFFFFFFFFFFFF : Addr).toNat + (2 : Len).toNat ∧
      (0xFFFFFFFFFFFFFFFF : Addr).toNat + (1 : Len).toNat ≤ 2 ^ Config.aw ∧ TableSound State.reset ∧
      AdmitsAll State.reset.denied (update1Reads (0xFFFFFFFFFFFFFFFF : Addr).toNat (1 : Len).toNat) :=
  ⟨by decide, by decide, reset_sound, admitsAll_of_none _⟩

/-- 95 V4. The premise on a built table is met by `witness_TableBuilt`. -/
theorem witness_Update1IsBitSerialDivision :
    TableSound (fresh 0x1000 digits) ∧
      ∃ t, Replies (.update1 0 0x1000 9) (fresh 0x1000 digits) 0x46A5A9388A5BEFFE t :=
  ⟨fresh_sound _ _, _, replies_of_history (rs := update1Reads 0x1000 9) (by decide +kernel)⟩

/-- 95 V7 lines 5 and 6. -/
theorem witness_Update8Responds :
    2 ^ Config.aw < (0xFFFFFFFFFFFFFFF8 : Addr).toNat + (9 : Len).toNat ∧
      (0xFFFFFFFFFFFFFFF8 : Addr).toNat + (8 : Len).toNat ≤ 2 ^ Config.aw ∧ TableSound State.reset ∧
      AdmitsAll State.reset.denied (update8Reads (0xFFFFFFFFFFFFFFF8 : Addr).toNat (8 : Len).toNat) :=
  ⟨by decide, by decide, reset_sound, admitsAll_of_none _⟩

theorem witness_ModesAgree :
    TableSound State.reset ∧ (0xFFFFFFFFFFFFFFF8 : Addr).toNat + (8 : Len).toNat ≤ 2 ^ Config.aw ∧
      AdmitsAll State.reset.denied (update1Reads (0xFFFFFFFFFFFFFFF8 : Addr).toNat (8 : Len).toNat) ∧
      AdmitsAll State.reset.denied (update8Reads (0xFFFFFFFFFFFFFFF8 : Addr).toNat (8 : Len).toNat) :=
  ⟨reset_sound, by decide, admitsAll_of_none _, admitsAll_of_none _⟩

/-- 42 R111, the first example: the prologue from `0x1003` with 32 bytes left. Also for `ConsumedNeverDecides`. -/
theorem witness_PrologueReachesAlignment :
    (startWork 0 0x1003 32).consumed = 0 ∧ ∃ w', phase1 built (startWork 0 0x1003 32) = .ok w' := by
  refine ⟨rfl, ⟨0, 0x1008, 27, 5, update1Reads 0x1003 5⟩, ok_of_ended ?_⟩
  decide +kernel

/-- 42 R112, R113, the examples: 27 bytes left at `0x1008`, then 3 at `0x1020`. -/
theorem witness_BulkAndEpilogueConsume :
    (∃ w', phase2 built (startWork 0 0x1008 27) = .ok w') ∧ ∃ w', phase3 built (startWork 0 0x1020 3) = .ok w' :=
  ⟨⟨⟨0, 0x1020, 3, 0, [⟨0x1008, .eight⟩, ⟨0x1010, .eight⟩, ⟨0x1018, .eight⟩]⟩, ok_of_ended (by decide +kernel)⟩,
    ⟨⟨0, 0x1023, 0, 0, update1Reads 0x1020 3⟩, ok_of_ended (by decide +kernel)⟩⟩

/-- 42 R117: (`a = 3`, `len = 32`) gives (5, 3, 3). -/
theorem witness_PhaseCounts : ∃ w1 w2 w3,
    phase1 built (startWork 0 0x1003 32) = .ok w1 ∧ phase2 built w1 = .ok w2 ∧ phase3 built w2 = .ok w3 :=
  ⟨⟨0, 0x1008, 27, 5, update1Reads 0x1003 5⟩,
    ⟨0, 0x1020, 3, 5, update1Reads 0x1003 5 ++ [⟨0x1008, .eight⟩, ⟨0x1010, .eight⟩, ⟨0x1018, .eight⟩]⟩,
    ⟨0, 0x1023, 0, 5, update8Reads 0x1003 32⟩, ok_of_ended (by decide +kernel), ok_of_ended (by decide +kernel),
    ok_of_ended (by decide +kernel)⟩

/-- 42 R117: (`a = 5`, `len = 2`) gives (2, 0, 0): the input ends before alignment. -/
theorem witness_PhaseCounts_short : ∃ w1 w2 w3, min 2 ((8 - 5) % 8) < (8 - 5) % 8 ∧
    phase1 built (startWork 0 0x1005 2) = .ok w1 ∧ phase2 built w1 = .ok w2 ∧ phase3 built w2 = .ok w3 :=
  ⟨⟨0, 0x1007, 0, 2, update1Reads 0x1005 2⟩, ⟨0, 0x1007, 0, 2, update1Reads 0x1005 2⟩,
    ⟨0, 0x1007, 0, 2, update8Reads 0x1005 2⟩, by decide, ok_of_ended (by decide +kernel),
    ok_of_ended (by decide +kernel), ok_of_ended (by decide +kernel)⟩

/-- The lengths where the clauses begin: 0, 7, 8 at an aligned address, 15. -/
theorem witness_ShortLengthsReadNoWord (len : Len) (h : len ∈ [0, 7, 8, (15 : Len)]) :
    TableSound State.reset ∧ (0x3000 : Addr).toNat + len.toNat ≤ 2 ^ Config.aw ∧ (0x3000 : Addr).toNat % 8 = 0 ∧
      AdmitsAll State.reset.denied (update8Reads (0x3000 : Addr).toNat len.toNat) :=
  ⟨reset_sound, by
    simp only [List.mem_cons, List.not_mem_nil, or_false] at h
    rcases h with rfl | rfl | rfl | rfl <;> decide, by decide, admitsAll_of_none _⟩

/-- 95 V8: "123456789" in two chunks of mixed mode, and in one `UPDATE1`. -/
theorem witness_StreamsCompose :
    TableSound (fresh 0x1000 digits) ∧
      (∃ t, Stream [(false, 0x1000, 4), (true, 0x1004, 5)] (fresh 0x1000 digits) 0 0x46A5A9388A5BEFFE t) ∧
      (0x1000 : Addr).toNat + (9 : Len).toNat ≤ 2 ^ Config.aw ∧
      AdmitsAll (fresh 0x1000 digits).denied (update1Reads (0x1000 : Addr).toNat (9 : Len).toNat) ∧
      dmemBytes (fresh 0x1000 digits).dmem (0x1000 : Addr).toNat (9 : Len).toNat =
        streamBytes (fresh 0x1000 digits).dmem [(false, 0x1000, 4), (true, 0x1004, 5)] := by
  refine ⟨fresh_sound _ _, ⟨_, 0x2BEFFE4CB0000000, _, replies_of_history (rs := update1Reads 0x1000 4) ?_,
    0x46A5A9388A5BEFFE, _, replies_of_history (rs := update8Reads 0x1004 5) ?_, rfl, rfl⟩, by decide,
    admitsAll_of_none _, by decide⟩ <;> decide +kernel

/-- 95 V8: the same bytes at `0x1000` and at `0x1007`, in the two modes. -/
theorem witness_ResponseDependsOnCrcAndBytesOnly :
    TableSound (fresh 0x1000 digits) ∧ TableSound (fresh 0x1007 digits) ∧
      (∃ t, Replies (updateOp false 0 0x1000 9) (fresh 0x1000 digits) 0x46A5A9388A5BEFFE t) ∧
      (∃ t, Replies (updateOp true 0 0x1007 9) (fresh 0x1007 digits) 0x46A5A9388A5BEFFE t) ∧
      dmemBytes (fresh 0x1000 digits).dmem (0x1000 : Addr).toNat (9 : Len).toNat =
        dmemBytes (fresh 0x1007 digits).dmem (0x1007 : Addr).toNat (9 : Len).toNat :=
  ⟨fresh_sound _ _, fresh_sound _ _, ⟨_, replies_of_history (rs := update1Reads 0x1000 9) (by decide +kernel)⟩,
    replies_trace5, by decide⟩

/-- Both modes, the whole of DMEM's last word. -/
theorem witness_UpdateReadsExactlyItsBytes (wide : Bool) :
    TableSound State.reset ∧ (0xFFFFFFFFFFFFFFF8 : Addr).toNat + (8 : Len).toNat ≤ 2 ^ Config.aw ∧
      AdmitsAll State.reset.denied (updateReads wide 0xFFFFFFFFFFFFFFF8 8) :=
  ⟨reset_sound, by decide, admitsAll_of_none _⟩

/-- The premise of `IssuedReadsAreAlignedAndAdmitted`, `OperationFrame` and `ExactlyOneResponse`: `INIT`, and an
update that reads. -/
theorem witness_NextState :
    State.reset.stalled = none ∧ exec .init State.reset = .next (respond .ack built) ∧
      (fresh 0x1007 digits).stalled = none ∧ ∃ t, exec (.update8 0 0x1007 9) (fresh 0x1007 digits) = .next t :=
  ⟨rfl, rfl, rfl, _, (next_of_history test_update8_trace5).1⟩

/-- Both sides of the boundary, in both modes, and the next state asked for in range. -/
theorem witness_RangePreconditionDecides :
    2 ^ Config.aw < (0xFFFFFFFFFFFFFFFF : Addr).toNat + (2 : Len).toNat ∧
      (0x1007 : Addr).toNat + (9 : Len).toNat ≤ 2 ^ Config.aw ∧
      ∃ t, exec (updateOp true 0 0x1007 9) (fresh 0x1007 digits) = .next t :=
  ⟨by decide, by decide, _, (next_of_history test_update8_trace5).1⟩

/-- 95 V7: stuck inside `UPDATE8` at `R8@0x1008` after three byte reads. -/
theorem witness_StuckAtFirstUnadmittedRead :
    TableSound (refusingWide State.reset) ∧ (0x1005 : Addr).toNat + (12 : Len).toNat ≤ 2 ^ Config.aw ∧
      updateReads true 0x1005 12 =
        [⟨0x1005, .one⟩, ⟨0x1006, .one⟩, ⟨0x1007, .one⟩] ++ ⟨0x1008, .eight⟩ :: [⟨0x1010, .one⟩] ∧
      AdmitsAll (refusingWide State.reset).denied [⟨0x1005, .one⟩, ⟨0x1006, .one⟩, ⟨0x1007, .one⟩] ∧
      admits (refusingWide State.reset).denied ⟨0x1008, .eight⟩ = false :=
  ⟨nofun, by decide, by decide, by unfold AdmitsAll; decide, by decide⟩

/-- Accepted and refused, on a fresh engine. -/
theorem witness_FirstOperationBuilds :
    State.reset.initFlag = false ∧ accepted (.update1 0x0123456789ABCDEF 0 0) = true ∧
      accepted (.update8 0 0xFFFFFFFFFFFFFFFF 2) = false := by decide

/-- The two clauses of `OperationFrame` on `accepted`, and the one on the flag. -/
theorem witness_OperationFrame :
    built.initFlag = true ∧ exec .init built = .next (respond .ack built) ∧ accepted .init = true ∧
      accepted (.update8 0 0xFFFFFFFFFFFFFFFF 2) = false ∧
      ∃ t, exec (.update8 0 0xFFFFFFFFFFFFFFFF 2) State.reset = .next t :=
  ⟨rfl, rfl, rfl, by decide, _, rfl⟩

/-- A reset that clears the flag, and a command that sets it. -/
theorem witness_FlagChangesOnlyByBuildOrReset :
    (∃ t, step { built with inputs := [.reset] } = .next t ∧ built.initFlag = true ∧ t.initFlag = false) ∧
      ∃ t, step (State.reset.withFetchWord 256 0) = .next t ∧ t.initFlag = true ∧
        (State.reset.withFetchWord 256 0).initFlag = false := by
  refine ⟨⟨_, rfl, rfl, rfl⟩, respond .ack built, ?_, rfl, rfl⟩
  have h : takeMove (State.reset.withFetchWord 256 0) = .execute .init State.reset := rfl
  rw [step, h]
  rfl

theorem witness_UnbuiltTableIsNeverRead :
    State.reset.initFlag = false ∧ accepted (.update8 0 0x1007 9) = true := by decide

theorem witness_AccumulatorIsNotStored :
    (∃ t, exec (updateOp true 0 0xFFFFFFFFFFFFFFFF 1) State.reset = .next t) ∧
      ∃ t, exec (updateOp true 0xFFFFFFFFFFFFFFFF 0xFFFFFFFFFFFFFFFF 1) State.reset = .next t :=
  ⟨⟨_, (next_of_history (ev := [.read ⟨0xFFFFFFFFFFFFFFFF, .one⟩, .respond (.value 0)]) (by decide +kernel)).1⟩,
    ⟨_, (next_of_history (ev := [.read ⟨0xFFFFFFFFFFFFFFFF, .one⟩, .respond (.value 0x906FFFFFFFFFFFFF)])
      (by decide +kernel)).1⟩⟩

theorem witness_NoOperationFaults : TableSound State.reset := reset_sound

theorem witness_StreamsDoNotDisturbEachOther :
    TableSound (fresh 0x1007 digits) ∧ (∃ t, exec .init (fresh 0x1007 digits) = .next t) ∧
      ∃ u, Replies (updateOp true 0 0x1007 9) (fresh 0x1007 digits) 0x46A5A9388A5BEFFE u :=
  ⟨fresh_sound _ _, ⟨_, rfl⟩, replies_trace5⟩

/-- 95 P4: an update over "abc" before a reset that is pending. -/
theorem witness_ResponseSurvivesReset :
    TableSound { fresh 0x1000 [0x61, 0x62, 0x63] with inputs := [.reset] } ∧
      ({ fresh 0x1000 [0x61, 0x62, 0x63] with inputs := [.reset] } : State).stalled = none ∧
      (∃ t, step { fresh 0x1000 [0x61, 0x62, 0x63] with inputs := [.reset] } = .next t) ∧
      ∃ u, Replies (updateOp false 0 0x1000 3) { fresh 0x1000 [0x61, 0x62, 0x63] with inputs := [.reset] }
        0x58893BB000000000 u :=
  ⟨nofun, rfl, ⟨_, rfl⟩, _, replies_of_history (rs := update1Reads 0x1000 3) (by decide +kernel)⟩

/-- The invariant is met with a move pending, the step answers a next state, and it is the host's write. -/
theorem witness_StepKeepsInvariant :
    Inv (pending [.write 0x1000 0x31]) ∧ ∃ t, step (pending [.write 0x1000 0x31]) = .next t :=
  ⟨⟨nofun, reset_memory_wf, fun _ => nofun, fun _ => nofun⟩, _, rfl⟩

end Sys2Proof.Tests
end

/-!
### The statements of 10_state

What a step can do is said once (`exec_next_cases`, `step_next_cases`); the invariant, the flag, the unbuilt table and
the accumulator each follow from it.
-/

namespace Sys2Proof.Machine

/-! ### Operations and steps, each said once -/

/-- The loops of an update in the mode chosen: the three phases of `UPDATE8`, or the byte loop of `UPDATE1`. -/
def updateRun (wide : Bool) (s : State) (w : Work) : Except Halt Work :=
  if wide then threePhases s w else byteLoop s w

theorem exec_init (s : State) : exec .init s = .next (respond .ack (ensureBuilt s)) := rfl

theorem exec_updateOp (wide : Bool) (crc : Word) (addr : Addr) (len : Len) (s : State) :
    exec (updateOp wide crc addr len) s =
      if inRange Config.aw addr len then
        finishUpdate (ensureBuilt s) (updateRun wide (ensureBuilt s) (startWork crc addr len))
      else .next (refuse .range s) := by
  cases wide <;> rfl

theorem accepted_updateOp (wide : Bool) (crc : Word) (addr : Addr) (len : Len) :
    accepted (updateOp wide crc addr len) = inRange Config.aw addr len := by
  cases wide <;> rfl

/-- Every operation is `INIT` or an update in one of the two modes. -/
theorem instr_cases (i : Instr) : i = .init ∨ ∃ wide crc addr len, i = updateOp wide crc addr len := by
  cases i with
  | init => exact .inl rfl
  | update1 crc addr len => exact .inr ⟨false, crc, addr, len, rfl⟩
  | update8 crc addr len => exact .inr ⟨true, crc, addr, len, rfl⟩

/-- All that an operation can do when it answers a next state: acknowledge, refuse, or run an update to its end. -/
theorem exec_next_cases {i : Instr} {s t : State} (h : exec i s = .next t) :
    (i = .init ∧ t = respond .ack (ensureBuilt s)) ∨
    (accepted i = false ∧ t = refuse .range s) ∨
    ∃ wide crc addr len, i = updateOp wide crc addr len ∧ inRange Config.aw addr len = true ∧
      finishUpdate (ensureBuilt s) (updateRun wide (ensureBuilt s) (startWork crc addr len)) = .next t := by
  rcases instr_cases i with rfl | ⟨wide, crc, addr, len, rfl⟩
  · rw [exec_init] at h
    cases h
    exact .inl ⟨rfl, rfl⟩
  · rw [exec_updateOp] at h
    cases hr : inRange Config.aw addr len with
    | true =>
      rw [if_pos hr] at h
      exact .inr (.inr ⟨wide, crc, addr, len, rfl, hr, h⟩)
    | false =>
      rw [if_neg (by simp [hr])] at h
      cases h
      exact .inr (.inl ⟨by rw [accepted_updateOp, hr], rfl⟩)

/-- All that a step can do: hold the state, refuse or execute a command, reset, or take the host's write. -/
theorem step_next_cases {s t : State} (h : step s = .next t) :
    t = s ∨
    (∃ w rest why, s.inputs = .command w :: rest ∧ decode w = .error why ∧
      t = refuse (.reservedCommand why) { s with inputs := rest }) ∨
    (∃ w rest i, s.inputs = .command w :: rest ∧ decode w = .ok i ∧ exec i { s with inputs := rest } = .next t) ∨
    (∃ rest, s.inputs = .reset :: rest ∧ t = hostReset { s with inputs := rest }) ∨
    ∃ a b rest, s.inputs = .write a b :: rest ∧ t = hostWrite a b { s with inputs := rest } := by
  unfold step at h
  rcases takeMove_cases s with ⟨hm, -⟩ | ⟨w, rest, hi, hm⟩ | ⟨rest, hi, hm⟩ | ⟨a, b, rest, hi, hm⟩
  · rw [hm] at h
    cases h
    exact .inl rfl
  · rw [hm, takeCommand] at h
    cases hd : decode w with
    | ok i =>
      rw [hd] at h
      exact .inr (.inr (.inl ⟨w, rest, i, hi, hd, h⟩))
    | error why =>
      rw [hd] at h
      cases h
      exact .inr (.inl ⟨w, rest, why, hi, hd, rfl⟩)
  · rw [hm] at h
    cases h
    exact .inr (.inr (.inr (.inl ⟨rest, hi, rfl⟩)))
  · rw [hm] at h
    cases h
    exact .inr (.inr (.inr (.inr ⟨a, b, rest, hi, rfl⟩)))

/-! ### The engine's pair after an operation -/

/-- The end of an update leaves the engine's pair alone, responded or stuck. -/
theorem finishUpdate_engine {s t : State} {r : Except Halt Work} (h : finishUpdate s r = .next t) :
    t.initFlag = s.initFlag ∧ t.table = s.table := by
  rcases finishUpdate_next h with ⟨w, -, rfl⟩ | ⟨x, rs, -, rfl⟩
  · exact ⟨rfl, rfl⟩
  · exact ⟨rfl, rfl⟩

/-- A state whose engine's pair is the one `ensureBuilt` leaves. -/
theorem engineBuilt_of_pair {s t : State} (hf : t.initFlag = (ensureBuilt s).initFlag)
    (ht : t.table = (ensureBuilt s).table) : EngineBuilt s t where
  flag := hf.trans (ensureBuilt_engine s).flag
  kept h := ht.trans ((ensureBuilt_engine s).kept h)
  built h := ht ▸ (ensureBuilt_engine s).built h

/-- A refused operation does nothing but mark the state, and an accepted one leaves the engine's pair built. -/
theorem exec_engine {i : Instr} {s t : State} (h : exec i s = .next t) :
    (accepted i = false ∧ t = refuse .range s) ∨ (accepted i = true ∧ EngineBuilt s t) := by
  rcases exec_next_cases h with ⟨rfl, rfl⟩ | hrefused | ⟨wide, crc, addr, len, rfl, hr, hf⟩
  · exact .inr ⟨rfl, engineBuilt_of_pair rfl rfl⟩
  · exact .inl hrefused
  · obtain ⟨hflag, htable⟩ := finishUpdate_engine hf
    exact .inr ⟨(accepted_updateOp ..).trans hr, engineBuilt_of_pair hflag htable⟩

/-- Two built tables are one table. -/
theorem TableBuilt.unique {t u : Table} (ht : TableBuilt t) (hu : TableBuilt u) : t = u :=
  table_ext fun k n => (ht k n).trans (hu k n).symm

/-- With the flag clear the build does not depend on the table space (40_table_builder R87). -/
theorem ensureBuilt_ignores_table {s : State} (h : s.initFlag = false) (t : Table) :
    ensureBuilt { s with table := t } = ensureBuilt s := by
  have htable : buildSliceTables (buildBaseTable t) = buildSliceTables (buildBaseTable s.table) :=
    (buildTables_built t).unique (buildTables_built s.table)
  rw [ensureBuilt_of_clear h, ensureBuilt_of_clear (s := { s with table := t }) h]
  simp only [build, htable]

/-! ### Safe runs: every request inside DMEM and aligned, every one issued admitted -/

/-- Requests that the engine may issue and the platform admits. -/
def SafeReads (s : State) (rs : List DmemRead) : Prop := ∀ r ∈ rs, ReadOk r ∧ admits s.denied r = true

theorem SafeReads.append {s : State} {rs : List DmemRead} {r : DmemRead} (h : SafeReads s rs) (hr : ReadOk r)
    (ha : admits s.denied r = true) : SafeReads s (rs ++ [r]) := by
  intro q hq
  rcases List.mem_append.mp hq with hq | hq
  · exact h q hq
  · rw [List.mem_singleton.mp hq]
    exact ⟨hr, ha⟩

/-- Working values of an update in range: the bytes to come are inside DMEM (20_memory R58) and the requests so far
are safe. -/
structure SafeWork (s : State) (w : Work) : Prop where
  inside : w.pos + w.rem ≤ 2 ^ Config.aw
  reads : SafeReads s w.reads

/-- A run that ends in working values with `P`, or stuck at a request the engine may issue and the platform does not
admit, after safe ones. -/
def SafeEnd (s : State) (P : Work → Prop) : Except Halt Work → Prop
  | .ok w => P w
  | .error (.stuck r rs) => ReadOk r ∧ admits s.denied r = false ∧ SafeReads s rs
  | .error (.fault _) => True

section SafeEnd

variable {s : State} {P Q : Work → Prop}

theorem SafeEnd.mono {r : Except Halt Work} (h : SafeEnd s P r) (hPQ : ∀ w, r = .ok w → P w → Q w) :
    SafeEnd s Q r := by
  match r, h with
  | .ok w, h => exact hPQ w rfl h
  | .error (.stuck _ _), h => exact h
  | .error (.fault _), h => exact h

theorem SafeEnd.bind {r : Except Halt Work} {f : Work → Except Halt Work} (h : SafeEnd s P r)
    (hf : ∀ w, P w → SafeEnd s Q (f w)) : SafeEnd s Q (r.bind f) := by
  match r, h with
  | .ok w, h => exact hf w h
  | .error (.stuck _ _), h => exact h
  | .error (.fault _), h => exact h

/-- A loop ends safely if each of its turns does. -/
theorem whileLoop_safeEnd {cond : Work → Bool} {body : Work → Except Halt Work}
    (turn : ∀ w, P w → cond w = true → SafeEnd s P (body w)) (n : Nat) {w : Work} (hw : P w) :
    SafeEnd s P (whileLoop cond body n w) := by
  have keep : ∀ w w', P w → cond w = true → body w = .ok w' → P w' := by
    intro w w' hw hc hb
    have hend := turn w hw hc
    rwa [hb] at hend
  cases hr : whileLoop cond body n w with
  | ok w' => exact whileLoop_keeps keep n hw hr
  | error x =>
    obtain ⟨w', hw', hc, hb⟩ := whileLoop_halts_in keep n hw hr
    have hend := turn w' hw' hc
    rwa [hb] at hend

end SafeEnd

theorem byteStep_safeEnd {s : State} {w : Work} (h : SafeWork s w) (hrem : 0 < w.rem) :
    SafeEnd s (fun w' => SafeWork s w' ∧ w'.pos = w.pos + 1 ∧ w'.consumed = w.consumed) (byteStep s w) := by
  obtain ⟨hin, hreads⟩ := h
  have hok : ReadOk ⟨w.pos, .one⟩ := show w.pos < 2 ^ Config.aw by omega
  rcases byteStep_cases s w with ⟨ha, c, -, hb⟩ | ⟨ha, hb⟩ | ⟨-, f, -, hb⟩
  · rw [hb]
    exact ⟨⟨show w.pos + 1 + (w.rem - 1) ≤ _ by omega, hreads.append hok ha⟩, rfl, rfl⟩
  · rw [hb]
    exact ⟨hok, ha, hreads⟩
  · rw [hb]
    trivial

theorem wordStep_safeEnd {s : State} {w : Work} (h : SafeWork s w) (hrem : 8 ≤ w.rem) (halign : w.pos % 8 = 0) :
    SafeEnd s (fun w' => SafeWork s w' ∧ w'.pos = w.pos + 8) (wordStep s w) := by
  obtain ⟨hin, hreads⟩ := h
  have hok : ReadOk ⟨w.pos, .eight⟩ := ⟨show w.pos + 8 ≤ 2 ^ Config.aw by omega, halign⟩
  rcases wordStep_cases s w with ⟨ha, c, -, hb⟩ | ⟨ha, hb⟩ | ⟨-, f, -, hb⟩
  · rw [hb]
    exact ⟨⟨show w.pos + 8 + (w.rem - 8) ≤ _ by omega, hreads.append hok ha⟩, rfl⟩
  · rw [hb]
    exact ⟨hok, ha, hreads⟩
  · rw [hb]
    trivial

theorem byteLoop_safeEnd {s : State} {w : Work} (h : SafeWork s w) : SafeEnd s (SafeWork s) (byteLoop s w) :=
  whileLoop_safeEnd (fun _ hw hc => (byteStep_safeEnd hw (of_decide_eq_true hc)).mono fun _ _ h => h.1) _ h

/-- Where phase 1 ends: at an aligned position, or with too few bytes left for a word (42_updater_slice8 R111). -/
def BulkReady (s : State) (w : Work) : Prop := SafeWork s w ∧ (8 ≤ w.rem → w.pos % 8 = 0)

/-- What phase 1 keeps: `consumed` is at most the offset of the byte before `pos` in its word, so it stays below 8. -/
def InPrologue (s : State) (w : Work) : Prop := SafeWork s w ∧ w.consumed ≤ (w.pos + 7) % 8

theorem prologueStep_safeEnd {s : State} {w : Work} (h : InPrologue s w) (hpos : w.pos % 8 ≠ 0) (hrem : 0 < w.rem) :
    SafeEnd s (InPrologue s) (prologueStep s w) := by
  obtain ⟨⟨hin, hreads⟩, hcon⟩ := h
  have hsafe : SafeWork s { w with consumed := w.consumed + 1 } := ⟨hin, hreads⟩
  refine (byteStep_safeEnd hsafe hrem).mono fun w' _ h => ?_
  obtain ⟨hw', hpos', hcon'⟩ := h
  refine ⟨hw', ?_⟩
  rw [hpos', hcon']
  simp only
  omega

theorem byteStep_rem {s : State} {w w' : Work} (h : byteStep s w = .ok w') : w'.rem = w.rem - 1 := by
  rcases byteStep_cases s w with ⟨-, c, -, hb⟩ | ⟨-, hb⟩ | ⟨-, f, -, hb⟩
  · cases hb.symm.trans h
    rfl
  · cases hb.symm.trans h
  · cases hb.symm.trans h

/-- Phase 1 ends because one conjunct of its condition fails. -/
theorem phase1_exit {s : State} {w w' : Work} (h : phase1 s w = .ok w') :
    8 ≤ w'.consumed ∨ w'.pos % 8 = 0 ∨ w'.rem = 0 := by
  have hexit := whileLoop_exit (fun w w' hc hb => ?_) (fun w hc => ?_) _ (Nat.le_refl _) h
  · simp only [Bool.and_eq_false_iff, decide_eq_false_iff_not] at hexit
    omega
  · simp only [Bool.and_eq_true, decide_eq_true_eq] at hc
    have hrem : w'.rem = w.rem - 1 := byteStep_rem (w := { w with consumed := w.consumed + 1 }) hb
    omega
  · simp only [Bool.and_eq_true, decide_eq_true_eq] at hc
    exact hc.2

/-- `consumed` never decides (42_updater_slice8 R122): phase 1 ends aligned or with no byte left. -/
theorem phase1_safeEnd {s : State} {w : Work} (h : SafeWork s w) (hcon : w.consumed = 0) :
    SafeEnd s (BulkReady s) (phase1 s w) := by
  have hloop : SafeEnd s (InPrologue s) (phase1 s w) := by
    refine whileLoop_safeEnd (fun w hw hc => ?_) _ ⟨h, by omega⟩
    simp only [Bool.and_eq_true, decide_eq_true_eq] at hc
    obtain ⟨⟨-, hpos⟩, hrem⟩ := hc
    exact prologueStep_safeEnd hw hpos hrem
  refine hloop.mono fun w' hok hw' => ?_
  obtain ⟨hsafe, hcon'⟩ := hw'
  refine ⟨hsafe, fun hrem => ?_⟩
  have hexit := phase1_exit hok
  omega

theorem phase2_safeEnd {s : State} {w : Work} (h : BulkReady s w) : SafeEnd s (SafeWork s) (phase2 s w) := by
  refine (whileLoop_safeEnd (P := BulkReady s) (fun w hw hc => ?_) _ h).mono fun _ _ h => h.1
  obtain ⟨hsafe, hready⟩ := hw
  have hrem : 8 ≤ w.rem := of_decide_eq_true hc
  have halign := hready hrem
  refine (wordStep_safeEnd hsafe hrem halign).mono fun w' _ h => ?_
  obtain ⟨hsafe', hpos⟩ := h
  exact ⟨hsafe', fun _ => by rw [hpos, Nat.add_mod_right, halign]⟩

theorem threePhases_safeEnd {s : State} {w : Work} (h : SafeWork s w) (hcon : w.consumed = 0) :
    SafeEnd s (SafeWork s) (threePhases s w) :=
  ((phase1_safeEnd h hcon).bind fun _ => phase2_safeEnd).bind fun _ => byteLoop_safeEnd

theorem startWork_safe (s : State) (crc : Word) {addr : Addr} {len : Len} (h : inRange Config.aw addr len = true) :
    SafeWork s (startWork crc addr len) :=
  ⟨of_decide_eq_true h, fun _ => nofun⟩

/-- Every request of an accepted update is inside DMEM and aligned (20_memory R45), in either mode. -/
theorem updateRun_safeEnd (wide : Bool) (s : State) (crc : Word) {addr : Addr} {len : Len}
    (h : inRange Config.aw addr len = true) :
    SafeEnd s (SafeWork s) (updateRun wide s (startWork crc addr len)) := by
  cases wide with
  | false => exact byteLoop_safeEnd (startWork_safe s crc h)
  | true => exact threePhases_safeEnd (startWork_safe s crc h) rfl

/-! ### The invariant -/

theorem Inv.dropInput {s : State} (h : Inv s) (rest : List HostInput) : Inv { s with inputs := rest } :=
  ⟨h.tableSound, h.memory, h.reads, h.stalled⟩

theorem Inv.refuse {s : State} (h : Inv s) (why : RefuseReason) : Inv (refuse why s) :=
  ⟨h.tableSound, h.memory, h.reads, h.stalled⟩

theorem Inv.hostReset {s : State} (h : Inv s) : Inv (hostReset s) := ⟨nofun, h.memory, h.reads, h.stalled⟩

theorem Inv.hostWrite {s : State} (h : Inv s) (a : Addr) (b : Byte) : Inv (hostWrite a b s) :=
  ⟨h.tableSound, memWrite_wf h.memory a b, h.reads, h.stalled⟩

theorem Inv.ensureBuilt {s : State} (h : Inv s) : Inv (ensureBuilt s) where
  tableSound _ := ensureBuilt_built h.tableSound
  memory := by simpa using h.memory
  reads := by simpa using h.reads
  stalled := by simpa using h.stalled

theorem Inv.respond {s : State} (h : Inv s) (r : Response) : Inv (respond r s) where
  tableSound := h.tableSound
  memory := h.memory
  reads q hq := h.reads q (by simpa using hq)
  stalled := h.stalled

theorem Inv.logReads {s : State} (h : Inv s) {rs : List DmemRead} (hrs : SafeReads s rs) : Inv (logReads rs s) where
  tableSound := h.tableSound
  memory := h.memory
  reads q hq := by
    have hq' : .read q ∈ s.trace ∨ q ∈ rs := by simpa using hq
    exact hq'.elim (h.reads q) (hrs q)
  stalled := h.stalled

theorem Inv.stall {s : State} (h : Inv s) {r : DmemRead} (hok : ReadOk r) (ha : admits s.denied r = false) :
    Inv (stall r s) where
  tableSound := h.tableSound
  memory := h.memory
  reads := h.reads
  stalled q hq := by
    cases hq
    exact ⟨hok, ha⟩

theorem Inv.finishUpdate {s t : State} {r : Except Halt Work} (h : Inv s) (hr : SafeEnd s (SafeWork s) r)
    (hf : finishUpdate s r = .next t) : Inv t := by
  rcases finishUpdate_next hf with ⟨w, rfl, rfl⟩ | ⟨x, rs, rfl, rfl⟩
  · have hw : SafeWork s w := hr
    exact (h.logReads hw.reads).respond _
  · obtain ⟨hok, ha, hrs⟩ := hr
    exact (h.logReads hrs).stall hok ha

theorem exec_keeps_inv {i : Instr} {s t : State} (h : Inv s) (he : exec i s = .next t) : Inv t := by
  rcases exec_next_cases he with ⟨-, rfl⟩ | ⟨-, rfl⟩ | ⟨wide, crc, addr, len, -, hr, hf⟩
  · exact h.ensureBuilt.respond _
  · exact h.refuse _
  · exact h.ensureBuilt.finishUpdate (updateRun_safeEnd wide _ crc hr) hf

/-- Settles O52: each kind of move keeps the invariant, an update because every request of its loops is safe. -/
theorem stepKeepsInvariant : Obligations.StepKeepsInvariant := by
  intro s t h hs
  rcases step_next_cases hs with rfl | ⟨w, rest, why, -, -, rfl⟩ | ⟨w, rest, i, -, -, he⟩ | ⟨rest, -, rfl⟩ |
    ⟨a, b, rest, -, rfl⟩
  · exact h
  · exact (h.dropInput rest).refuse _
  · exact exec_keeps_inv (h.dropInput rest) he
  · exact (h.dropInput rest).hostReset
  · exact (h.dropInput rest).hostWrite a b

/-- Settles O51: at reset the flag is clear and DMEM, the history and the stuck read are empty. -/
theorem invariantHoldsAtReset : Obligations.InvariantHoldsAtReset :=
  ⟨nofun, reset_memory_wf, fun _ => nofun, fun _ => nofun⟩

/-! ### The reset values and the built table -/

theorem poly_getLsbD (i : Nat) : poly.getLsbD i = true ↔ i = 63 ∨ i = 62 ∨ i = 60 ∨ i = 59 := by
  by_cases hi : i < 64
  · have hbits : ∀ j : Fin 64, poly.getLsbD j = true ↔ j.val = 63 ∨ j.val = 62 ∨ j.val = 60 ∨ j.val = 59 := by decide
    exact hbits ⟨i, hi⟩
  · rw [BitVec.getLsbD_of_ge _ _ (by omega)]
    simp only [Bool.false_eq_true, false_iff]
    omega

/-- Settles O11, the bits of the polynomial by `poly_getLsbD`. -/
theorem resetStateValues : Obligations.ResetStateValues :=
  ⟨rfl, tableEntry_unbuilt, rfl, poly_getLsbD⟩

/-- Settles O15: the table is built, and `tableValue` is defined by the recurrence. -/
theorem builtTableFollowsItsRecurrence : Obligations.BuiltTableFollowsItsRecurrence := by
  intro s t hs he
  rw [exec_init] at he
  cases he
  have hbuilt : TableBuilt (ensureBuilt s).table := (ensureBuilt_engine s).built hs
  refine ⟨hbuilt 0, fun j k n hk => ⟨_, _, hbuilt j n, hbuilt 0 _, ?_⟩⟩
  rw [respond_table, hbuilt k n, hk]
  rfl

/-! ### The flag, and the unbuilt table -/

/-- All that a step can do to the flag: leave it, clear it as a reset, or set it as a command that builds. -/
theorem step_flag_cases {s t : State} (h : step s = .next t) :
    t.initFlag = s.initFlag ∨
    (t.initFlag = false ∧ ∃ rest, s.inputs = .reset :: rest) ∨
    (EngineBuilt s t ∧ ∃ w rest, s.inputs = .command w :: rest) := by
  rcases step_next_cases h with rfl | ⟨w, rest, why, -, -, rfl⟩ | ⟨w, rest, i, hi, -, he⟩ | ⟨rest, hi, rfl⟩ |
    ⟨a, b, rest, -, rfl⟩
  · exact .inl rfl
  · exact .inl rfl
  · rcases exec_engine he with ⟨-, rfl⟩ | ⟨-, hbuilt⟩
    · exact .inl rfl
    · exact .inr (.inr ⟨⟨hbuilt.flag, hbuilt.kept, hbuilt.built⟩, w, rest, hi⟩)
  · exact .inr (.inl ⟨rfl, rest, hi⟩)
  · exact .inl rfl

/-- Settles O44, by what a step can do to the flag. -/
theorem flagChangesOnlyByBuildOrReset : Obligations.FlagChangesOnlyByBuildOrReset := by
  intro s t hs
  rcases step_flag_cases hs with hsame | ⟨hclear, hreset⟩ | ⟨hbuilt, hcommand⟩
  · constructor
    · intro h1 h0
      simp [hsame, h1] at h0
    · intro h0 h1
      simp [hsame, h0] at h1
  · exact ⟨fun _ _ => hreset, fun _ h1 => by simp [hclear] at h1⟩
  · exact ⟨fun _ h0 => by simp [hbuilt.flag] at h0, fun h0 _ => ⟨hbuilt.built h0, hcommand⟩⟩

/-- An accepted operation sees of its state only what `ensureBuilt` leaves. -/
theorem exec_congr_of_accepted {i : Instr} {s s' : State} (ha : accepted i = true)
    (h : ensureBuilt s = ensureBuilt s') : exec i s = exec i s' := by
  rcases instr_cases i with rfl | ⟨wide, crc, addr, len, rfl⟩
  · rw [exec_init, exec_init, h]
  · rw [accepted_updateOp] at ha
    rw [exec_updateOp, exec_updateOp, if_pos ha, if_pos ha, h]

/-- Settles O45: an accepted operation starts with `ensureBuilt`, and with the flag clear that overwrites the table. -/
theorem unbuiltTableIsNeverRead : Obligations.UnbuiltTableIsNeverRead :=
  fun _ _ t hs ha => exec_congr_of_accepted ha (ensureBuilt_ignores_table hs t)

/-! ### The accumulator -/

/-- Two runs that differ in the accumulator only, unless a fault ends one of them: both end in working values, or
both are stuck at the same request after the same ones. -/
inductive SameButCrc : Except Halt Work → Except Halt Work → Prop
  | ended (w : Work) (c : Word) : SameButCrc (.ok w) (.ok { w with crc := c })
  | stuck (r : DmemRead) (rs : List DmemRead) : SameButCrc (.error (.stuck r rs)) (.error (.stuck r rs))
  | faultLeft (f : Fault) (r : Except Halt Work) : SameButCrc (.error (.fault f)) r
  | faultRight (r : Except Halt Work) (f : Fault) : SameButCrc r (.error (.fault f))

/-- What a part of an update does to everything but the accumulator does not depend on the accumulator. -/
def CrcBlind (f : Work → Except Halt Work) : Prop := ∀ (w : Work) (c : Word), SameButCrc (f w) (f { w with crc := c })

theorem SameButCrc.bind {r r' : Except Halt Work} {f : Work → Except Halt Work} (h : SameButCrc r r')
    (hf : CrcBlind f) : SameButCrc (r.bind f) (r'.bind f) := by
  cases h with
  | ended w c => exact hf w c
  | stuck r rs => exact .stuck r rs
  | faultLeft f r => exact .faultLeft f _
  | faultRight r f => exact .faultRight _ f

theorem CrcBlind.bind {f g : Work → Except Halt Work} (hf : CrcBlind f) (hg : CrcBlind g) :
    CrcBlind fun w => (f w).bind g :=
  fun w c => (hf w c).bind hg

theorem whileLoop_crcBlind {cond : Work → Bool} {body : Work → Except Halt Work}
    (hcond : ∀ w c, cond { w with crc := c } = cond w) (hbody : CrcBlind body) (n : Nat) :
    CrcBlind (whileLoop cond body n) := by
  induction n with
  | zero => exact fun w c => .ended w c
  | succ n ih =>
    intro w c
    cases hc : cond w with
    | false =>
      rw [whileLoop_stop hc, whileLoop_stop ((hcond w c).trans hc)]
      exact .ended w c
    | true =>
      have turn : ∀ v, cond v = true → whileLoop cond body (n + 1) v = (body v).bind (whileLoop cond body n) := by
        intro v hv
        cases hb : body v with
        | ok v' => exact whileLoop_turn hv hb n
        | error x => exact whileLoop_halt hv hb n
      rw [turn w hc, turn _ ((hcond w c).trans hc)]
      exact (hbody w c).bind ih

theorem advance_sameButCrc (n : Nat) (w : Work) (c : Word) (e e' : Except Fault Word) :
    SameButCrc (advance n w e) (advance n { w with crc := c } e') := by
  cases e with
  | error f => exact .faultLeft f _
  | ok a =>
    cases e' with
    | error f => exact .faultRight _ f
    | ok a' => exact .ended { w with crc := a, pos := w.pos + n, rem := w.rem - n } a'

theorem issueRead_crcBlind (s : State) (r : DmemRead) : CrcBlind (issueRead s r) := by
  intro w c
  rcases issueRead_cases s r w with ⟨ha, h⟩ | ⟨ha, h⟩
  · rw [h, issueRead, if_pos ha]
    exact .ended { w with reads := w.reads ++ [r] } c
  · rw [h, issueRead, if_neg (by simp [ha])]
    exact .stuck r w.reads

theorem byteStep_crcBlind (s : State) : CrcBlind (byteStep s) :=
  fun w c => (issueRead_crcBlind s ⟨w.pos, .one⟩ w c).bind fun _ _ => advance_sameButCrc 1 _ _ _ _

theorem wordStep_crcBlind (s : State) : CrcBlind (wordStep s) :=
  fun w c => (issueRead_crcBlind s ⟨w.pos, .eight⟩ w c).bind fun _ _ => advance_sameButCrc 8 _ _ _ _

theorem prologueStep_crcBlind (s : State) : CrcBlind (prologueStep s) :=
  fun w c => byteStep_crcBlind s { w with consumed := w.consumed + 1 } c

theorem byteLoop_crcBlind (s : State) : CrcBlind (byteLoop s) :=
  fun w => whileLoop_crcBlind (fun _ _ => rfl) (byteStep_crcBlind s) w.rem w

theorem phase1_crcBlind (s : State) : CrcBlind (phase1 s) :=
  fun w => whileLoop_crcBlind (fun _ _ => rfl) (prologueStep_crcBlind s) w.rem w

theorem phase2_crcBlind (s : State) : CrcBlind (phase2 s) :=
  fun w => whileLoop_crcBlind (fun _ _ => rfl) (wordStep_crcBlind s) w.rem w

theorem updateRun_crcBlind (wide : Bool) (s : State) : CrcBlind (updateRun wide s) := by
  cases wide with
  | false => exact byteLoop_crcBlind s
  | true => exact ((phase1_crcBlind s).bind (phase2_crcBlind s)).bind (byteLoop_crcBlind s)

theorem finishUpdate_sameButCrc {s t t' : State} {r r' : Except Halt Work} (h : SameButCrc r r')
    (ht : finishUpdate s r = .next t) (ht' : finishUpdate s r' = .next t') :
    t = t' ∨ ∃ (rs : List DmemRead) (c c' : Word),
      t = respond (.value c) (logReads rs s) ∧ t' = respond (.value c') (logReads rs s) := by
  cases h with
  | ended w c =>
    cases ht
    cases ht'
    exact .inr ⟨w.reads, w.crc, c, rfl, rfl⟩
  | stuck r rs => exact .inl (Host.Outcome.next.inj (ht.symm.trans ht'))
  | faultLeft f r => cases ht
  | faultRight r f => cases ht'

/-- Settles O46: everything an update does but the folds ignores the accumulator, and the folds go to the response. -/
theorem accumulatorIsNotStored : Obligations.AccumulatorIsNotStored := by
  intro wide s t t' crc crc' addr len ht ht'
  rw [exec_updateOp] at ht ht'
  cases hr : inRange Config.aw addr len with
  | false =>
    rw [if_neg (by simp [hr])] at ht ht'
    exact .inl (Host.Outcome.next.inj (ht.symm.trans ht'))
  | true =>
    rw [if_pos hr] at ht ht'
    have hruns := updateRun_crcBlind wide (ensureBuilt s) (startWork crc addr len) crc'
    rcases finishUpdate_sameButCrc hruns ht ht' with h | ⟨rs, c, c', rfl, rfl⟩
    · exact .inl h
    · exact .inr ⟨rs, c, c', by simp, by simp, rfl⟩

end Sys2Proof.Machine

/-!
### The statements of 20_memory

An update is the list of its requests served in order (`exec_updateOp_inRange`): each loop is shown once to serve its
part of the list. What an update reads, where it is stuck and what it responds then follow by induction on the list.
-/

namespace Sys2Proof.Machine

/-! ### The wide read -/

theorem extractLsb'_append_byte_zero {n : Nat} (x : BitVec n) (b : Byte) : (x ++ b).extractLsb' 0 8 = b := by
  rw [BitVec.extractLsb'_append_eq_of_add_le (by omega), BitVec.extractLsb'_eq_self]

theorem extractLsb'_append_byte_succ {n : Nat} (x : BitVec n) (b : Byte) (k : Nat) :
    (x ++ b).extractLsb' (8 * (k + 1)) 8 = x.extractLsb' (8 * k) 8 :=
  BitVec.extractLsb'_append_eq_of_le (by omega)

/-- Eight bytes put together, the last one lowest, are found again by their byte positions. -/
theorem extractLsb'_appendBytes (b7 b6 b5 b4 b3 b2 b1 b0 : Byte) (i : Fin 8) :
    (b7 ++ b6 ++ b5 ++ b4 ++ b3 ++ b2 ++ b1 ++ b0).extractLsb' (8 * i.val) 8 = [b0, b1, b2, b3, b4, b5, b6, b7][i] := by
  fin_cases i <;> dsimp only <;>
    simp only [extractLsb'_append_byte_succ, Nat.mul_zero, extractLsb'_append_byte_zero,
      BitVec.extractLsb'_eq_self] <;> rfl

/-- The byte at `a + i` stands at bits `8i+7` to `8i` of the wide read (20_memory R43). -/
theorem memRead8_byte (m : Memory) (a : Nat) (i : Fin 8) :
    (memRead8 m a).extractLsb' (8 * i.val) 8 = memRead1 m (a + i.val) := by
  refine (extractLsb'_appendBytes _ _ _ _ _ _ _ _ i).trans ?_
  fin_cases i <;> rfl

/-- Settles O23, the example by the eight bytes it gives. -/
theorem wideReadIsLittleEndian : Obligations.WideReadIsLittleEndian := by
  refine ⟨memRead8_byte, fun m a h => ?_⟩
  simp only [List.range_succ, List.range_zero, List.nil_append, List.cons_append, List.map_cons, List.map_nil,
    List.cons.injEq, and_true, Nat.add_zero] at h
  obtain ⟨h0, h1, h2, h3, h4, h5, h6, h7⟩ := h
  rw [memRead8, h0, h1, h2, h3, h4, h5, h6, h7]
  rfl

/-! ### The command port and the host's writes -/

theorem takeMove_command {s : State} {w : Command} {rest : List HostInput} (hs : s.stalled = none)
    (hi : s.inputs = .command w :: rest) : takeMove s = takeCommand w { s with inputs := rest } := by
  simp only [takeMove, hs, hi]

theorem takeMove_write {s : State} {a : Addr} {b : Byte} {rest : List HostInput} (hs : s.stalled = none)
    (hi : s.inputs = .write a b :: rest) : takeMove s = .settled (hostWrite a b { s with inputs := rest }) := by
  simp only [takeMove, hs, hi]

theorem step_command {s : State} {w : Command} {rest : List HostInput} {i : Instr} (hs : s.stalled = none)
    (hi : s.inputs = .command w :: rest) (hd : decode w = .ok i) : step s = exec i { s with inputs := rest } := by
  rw [step, takeMove_command hs hi, takeCommand, hd]

theorem step_write {s : State} {a : Addr} {b : Byte} {rest : List HostInput} (hs : s.stalled = none)
    (hi : s.inputs = .write a b :: rest) : step s = .next (hostWrite a b { s with inputs := rest }) := by
  rw [step, takeMove_write hs hi]

theorem decode_of_decodeTableWord {nbits w : Nat} {i : Instr} (h : decodeTableWord nbits w = some i) :
    decode (tableCommand nbits w) = .ok i := by
  unfold decodeTableWord at h
  split at h
  next j hd => rw [hd, Option.some.inj h]
  next => cases h

/-- Settles O5: a placed command stands first at the port with no update stuck. -/
theorem stepRunsTheDecodedCommand : Obligations.StepRunsTheDecodedCommand :=
  ⟨fun _ _ _ _ hs hi hd => step_command hs hi hd,
    fun _ _ _ _ hw => step_command (placeCommand_stalled ..) (placeCommand_inputs ..) (decode_of_decodeTableWord hw)⟩

/-- Settles O10, by read after write in a canonical memory. -/
theorem hostWriteFillsOneByte : Obligations.HostWriteFillsOneByte := by
  intro s a b rest hs hi hwf
  have hread (x : Nat) : memRead1 (memWrite s.dmem a.toNat b) x = if a.toNat = x then b else memRead1 s.dmem x :=
    memRead1_memWrite hwf.1 a.toNat b x
  refine ⟨hostWrite a b { s with inputs := rest }, step_write hs hi, memWrite_wf hwf a b, ?_, fun x hx => ?_, rfl⟩
  · exact (hread a.toNat).trans (if_pos rfl)
  · exact (hread x).trans (if_neg hx.symm)

/-! ### Lists of requests -/

/-- How many bytes a request of this width asks for. -/
def ReadWidth.bytes : ReadWidth → Nat
  | .one => 1
  | .eight => 8

/-- How many bytes the requests of a list ask for together. -/
def bytesOf (rs : List DmemRead) : Nat := (rs.map fun r => r.width.bytes).sum

/-- `n` 8-byte requests, one after another from `addr`: those of phase 2 (42_updater_slice8 R118). -/
def wordReads (addr n : Nat) : List DmemRead := (List.range n).map fun j => ⟨addr + 8 * j, .eight⟩

@[simp] theorem bytesOf_nil : bytesOf [] = 0 := rfl

@[simp] theorem bytesOf_cons (r : DmemRead) (rs : List DmemRead) : bytesOf (r :: rs) = r.width.bytes + bytesOf rs := rfl

theorem bytesOf_append (rs qs : List DmemRead) : bytesOf (rs ++ qs) = bytesOf rs + bytesOf qs := by
  simp [bytesOf]

@[simp] theorem update1Reads_zero (addr : Nat) : update1Reads addr 0 = [] := rfl

theorem update1Reads_succ (addr n : Nat) :
    update1Reads addr (n + 1) = ⟨addr, .one⟩ :: update1Reads (addr + 1) n := by
  simp [update1Reads, List.range_succ_eq_map, Nat.add_assoc, Nat.add_comm 1]

@[simp] theorem wordReads_zero (addr : Nat) : wordReads addr 0 = [] := rfl

theorem wordReads_succ (addr n : Nat) : wordReads addr (n + 1) = ⟨addr, .eight⟩ :: wordReads (addr + 8) n := by
  simp [wordReads, List.range_succ_eq_map, Nat.mul_succ, Nat.add_assoc, Nat.add_comm 8]

theorem update8Reads_eq (addr len : Nat) :
    update8Reads addr len = update1Reads addr (npro addr len) ++ wordReads (addr + npro addr len) (nbulk addr len) ++
      update1Reads (addr + npro addr len + 8 * nbulk addr len) (nepi addr len) := rfl

@[simp] theorem bytesOf_update1Reads (addr n : Nat) : bytesOf (update1Reads addr n) = n := by
  induction n generalizing addr with
  | zero => rfl
  | succ n ih => rw [update1Reads_succ, bytesOf_cons, ih]; exact Nat.add_comm 1 n

@[simp] theorem bytesOf_wordReads (addr n : Nat) : bytesOf (wordReads addr n) = 8 * n := by
  induction n generalizing addr with
  | zero => rfl
  | succ n ih => rw [wordReads_succ, bytesOf_cons, ih]; exact Nat.add_comm 8 (8 * n)

theorem covered_eq (r : DmemRead) : covered r = List.range' r.addr r.width.bytes := by
  obtain ⟨addr, width⟩ := r
  cases width with
  | one => rfl
  | eight => exact List.range'_eq_map_range.symm

theorem covered_update1Reads (addr n : Nat) : (update1Reads addr n).flatMap covered = List.range' addr n := by
  induction n generalizing addr with
  | zero => rfl
  | succ n ih => rw [update1Reads_succ, List.flatMap_cons, ih, covered_eq, Nat.add_comm n]; exact List.range'_append_1

theorem covered_wordReads (addr n : Nat) : (wordReads addr n).flatMap covered = List.range' addr (8 * n) := by
  induction n generalizing addr with
  | zero => rfl
  | succ n ih =>
    rw [wordReads_succ, List.flatMap_cons, ih, covered_eq, Nat.mul_succ, Nat.add_comm (8 * n)]
    exact List.range'_append_1

/-- The three phases share out the bytes of an update (42_updater_slice8 R117). -/
theorem phaseCounts_add (addr len : Nat) : npro addr len + 8 * nbulk addr len + nepi addr len = len := by
  have hle : npro addr len ≤ len := Nat.min_le_left ..
  unfold nbulk nepi
  omega

theorem covered_update8Reads (addr len : Nat) : (update8Reads addr len).flatMap covered = List.range' addr len := by
  rw [update8Reads_eq, List.flatMap_append, List.flatMap_append, covered_update1Reads, covered_wordReads,
    covered_update1Reads, List.range'_append_1, Nat.add_assoc, List.range'_append_1, phaseCounts_add]

/-- In either mode the requests cover the range of the update, ascending (20_memory R48). -/
theorem covered_updateReads (wide : Bool) (addr : Addr) (len : Len) :
    (updateReads wide addr len).flatMap covered = List.range' addr.toNat len.toNat := by
  cases wide with
  | false => exact covered_update1Reads _ _
  | true => exact covered_update8Reads _ _

/-! ### An update serves its requests in order -/

/-- The fold of the bytes a request answers into the accumulator. -/
def foldRead (s : State) (crc : Word) (r : DmemRead) : Except Fault Word :=
  match r.width with
  | .one => fold1 s.table crc (memRead1 s.dmem r.addr)
  | .eight => fold8 s.table crc (memRead8 s.dmem r.addr)

/-- One request, issued and folded: what a byte step and a word step have in common. -/
def serveRead (s : State) (w : Work) (r : DmemRead) : Except Halt Work :=
  (issueRead s r w).bind fun w' => advance r.width.bytes w' (foldRead s w'.crc r)

/-- The requests of a list, one after another. -/
def serveReads (s : State) (rs : List DmemRead) (w : Work) : Except Halt Work := rs.foldlM (serveRead s) w

/-- The working values with `n` more bytes counted in `consumed`. -/
def countConsumed (n : Nat) (w : Work) : Work := { w with consumed := w.consumed + n }

/-- The working values once a request is issued and folded to `crc`. -/
def afterRead (w : Work) (r : DmemRead) (crc : Word) : Work :=
  { w with crc := crc, pos := w.pos + r.width.bytes, rem := w.rem - r.width.bytes, reads := w.reads ++ [r] }

/-- All that serving a request can do. -/
theorem serveRead_cases (s : State) (w : Work) (r : DmemRead) :
    (admits s.denied r = true ∧ ∃ c, foldRead s w.crc r = .ok c ∧ serveRead s w r = .ok (afterRead w r c)) ∨
    (admits s.denied r = false ∧ serveRead s w r = .error (.stuck r w.reads)) ∨
    (admits s.denied r = true ∧ ∃ f, foldRead s w.crc r = .error f ∧ serveRead s w r = .error (.fault f)) := by
  rcases issueRead_cases s r w with ⟨ha, hi⟩ | ⟨ha, hi⟩
  · cases hf : foldRead s w.crc r with
    | ok c => exact .inl ⟨ha, c, rfl, by simp [serveRead, hi, Except.bind, hf, advance, afterRead]⟩
    | error f => exact .inr (.inr ⟨ha, f, rfl, by simp [serveRead, hi, Except.bind, hf, advance]⟩)
  · exact .inr (.inl ⟨ha, by simp [serveRead, hi, Except.bind]⟩)

theorem serveRead_ok {s : State} {w w' : Work} {r : DmemRead} (h : serveRead s w r = .ok w') :
    ∃ c, w' = afterRead w r c := by
  rcases serveRead_cases s w r with ⟨-, c, -, hs⟩ | ⟨-, hs⟩ | ⟨-, f, -, hs⟩
  · cases hs.symm.trans h
    exact ⟨c, rfl⟩
  · cases hs.symm.trans h
  · cases hs.symm.trans h

theorem byteStep_eq (s : State) (w : Work) : byteStep s w = serveRead s w ⟨w.pos, .one⟩ := by
  rw [byteStep, serveRead]
  rcases issueRead_cases s ⟨w.pos, .one⟩ w with ⟨-, hi⟩ | ⟨-, hi⟩ <;>
    simp only [hi, Except.bind, foldRead, ReadWidth.bytes]

theorem wordStep_eq (s : State) (w : Work) : wordStep s w = serveRead s w ⟨w.pos, .eight⟩ := by
  rw [wordStep, serveRead]
  rcases issueRead_cases s ⟨w.pos, .eight⟩ w with ⟨-, hi⟩ | ⟨-, hi⟩ <;>
    simp only [hi, Except.bind, foldRead, ReadWidth.bytes]

theorem prologueStep_eq (s : State) (w : Work) : prologueStep s w = serveRead s (countConsumed 1 w) ⟨w.pos, .one⟩ :=
  byteStep_eq s (countConsumed 1 w)

@[simp] theorem serveReads_nil (s : State) (w : Work) : serveReads s [] w = .ok w := rfl

theorem serveReads_cons (s : State) (r : DmemRead) (rs : List DmemRead) (w : Work) :
    serveReads s (r :: rs) w = (serveRead s w r).bind (serveReads s rs) := rfl

theorem serveReads_append (s : State) (rs qs : List DmemRead) (w : Work) :
    serveReads s (rs ++ qs) w = (serveReads s rs w).bind (serveReads s qs) := List.foldlM_append

/-- Two continuations that agree on the result of a run continue it alike. -/
theorem bind_congr_of_ok {r : Except Halt Work} {f g : Work → Except Halt Work} (h : ∀ w, r = .ok w → f w = g w) :
    r.bind f = r.bind g := by
  cases r with
  | ok w => exact h w rfl
  | error x => rfl

theorem serveReads_ok {s : State} {rs : List DmemRead} {w w' : Work} (h : serveReads s rs w = .ok w') :
    w'.pos = w.pos + bytesOf rs ∧ w'.rem = w.rem - bytesOf rs ∧ w'.reads = w.reads ++ rs := by
  induction rs generalizing w with
  | nil => cases h; simp
  | cons r rs ih =>
    rw [serveReads_cons] at h
    cases hr : serveRead s w r with
    | error x => rw [hr] at h; cases h
    | ok w1 =>
      rw [hr] at h
      obtain ⟨hpos, hrem, hreads⟩ := ih h
      obtain ⟨c, rfl⟩ := serveRead_ok hr
      simp only [afterRead] at hpos hrem hreads
      rw [hpos, hrem, hreads, bytesOf_cons]
      exact ⟨Nat.add_assoc .., Nat.sub_sub .., by simp⟩

/-- Counting consumed bytes changes nothing but the count. -/
theorem serveRead_countConsumed (s : State) (n : Nat) (w : Work) (r : DmemRead) :
    serveRead s (countConsumed n w) r = (serveRead s w r).map (countConsumed n) := by
  cases ha : admits s.denied r with
  | false => simp [serveRead, issueRead, ha, Except.bind, Except.map, countConsumed]
  | true =>
    cases hf : foldRead s w.crc r <;>
      simp [serveRead, issueRead, ha, hf, Except.bind, Except.map, countConsumed, advance]

theorem serveReads_countConsumed (s : State) (n : Nat) (rs : List DmemRead) (w : Work) :
    serveReads s rs (countConsumed n w) = (serveReads s rs w).map (countConsumed n) := by
  induction rs generalizing w with
  | nil => rfl
  | cons r rs ih =>
    rw [serveReads_cons, serveReads_cons, serveRead_countConsumed]
    cases serveRead s w r with
    | ok w' => exact ih w'
    | error x => rfl

theorem map_countConsumed_twice (n k : Nat) (r : Except Halt Work) :
    (r.map (countConsumed n)).map (countConsumed k) = r.map (countConsumed (k + n)) := by
  cases r with
  | ok w => simp [Except.map, countConsumed, Nat.add_assoc, Nat.add_comm k]
  | error x => rfl

/-! ### Each loop serves its requests -/

theorem whileLoop_succ {cond : Work → Bool} {body : Work → Except Halt Work} {w : Work} (h : cond w = true)
    (n : Nat) :
    whileLoop cond body (n + 1) w = (body w).bind (whileLoop cond body n) := by
  cases hb : body w with
  | ok w' => exact whileLoop_turn h hb n
  | error x => exact whileLoop_halt h hb n

/-- The byte loop serves its 1-byte requests (20_memory R47). -/
theorem byteLoop_eq (s : State) (w : Work) : byteLoop s w = serveReads s (update1Reads w.pos w.rem) w := by
  have hloop : ∀ n w, w.rem = n → whileLoop (fun w => decide (0 < w.rem)) (byteStep s) n w =
      serveReads s (update1Reads w.pos n) w := by
    intro n
    induction n with
    | zero => intro w _; rfl
    | succ n ih =>
      intro w hn
      rw [whileLoop_succ (by simp [hn]), update1Reads_succ, serveReads_cons, byteStep_eq]
      refine bind_congr_of_ok fun w' hw' => ?_
      obtain ⟨c, rfl⟩ := serveRead_ok hw'
      exact ih _ (by simp [afterRead, ReadWidth.bytes, hn])
  exact hloop _ w rfl

/-- Phase 2 serves its 8-byte requests (42_updater_slice8 R112). -/
theorem phase2_eq (s : State) (w : Work) : phase2 s w = serveReads s (wordReads w.pos (w.rem / 8)) w := by
  have hloop : ∀ n w, w.rem ≤ n → whileLoop (fun w => decide (8 ≤ w.rem)) (wordStep s) n w =
      serveReads s (wordReads w.pos (w.rem / 8)) w := by
    intro n
    induction n with
    | zero => intro w hn; rw [Nat.le_zero.mp hn]; rfl
    | succ n ih =>
      intro w hn
      by_cases hrem : 8 ≤ w.rem
      · rw [whileLoop_succ (by simp [hrem]), show w.rem / 8 = (w.rem - 8) / 8 + 1 by omega, wordReads_succ,
          serveReads_cons, wordStep_eq]
        refine bind_congr_of_ok fun w' hw' => ?_
        obtain ⟨c, rfl⟩ := serveRead_ok hw'
        exact ih _ (show w.rem - 8 ≤ n by omega)
      · rw [whileLoop_stop (by simp [hrem]), Nat.div_eq_of_lt (by omega)]
        rfl
  exact hloop _ w (Nat.le_refl _)

theorem npro_eq_zero {pos rem : Nat} (h : pos % 8 = 0 ∨ rem = 0) : npro pos rem = 0 := by
  unfold npro
  omega

theorem npro_succ {pos rem : Nat} (hpos : pos % 8 ≠ 0) (hrem : 0 < rem) :
    npro pos rem = npro (pos + 1) (rem - 1) + 1 := by
  unfold npro
  omega

/-- Phase 1 serves its 1-byte requests and counts them (42_updater_slice8 R111). -/
theorem phase1_eq (s : State) {w : Work} (h : w.consumed = 0) :
    phase1 s w = (serveReads s (update1Reads w.pos (npro w.pos w.rem)) w).map (countConsumed (npro w.pos w.rem)) := by
  have hloop : ∀ n w, w.rem ≤ n → w.consumed ≤ (w.pos + 7) % 8 →
      whileLoop (fun w => decide (w.consumed < 8) && decide (w.pos % 8 ≠ 0) && decide (0 < w.rem)) (prologueStep s)
          n w =
        (serveReads s (update1Reads w.pos (npro w.pos w.rem)) w).map (countConsumed (npro w.pos w.rem)) := by
    intro n
    induction n with
    | zero => intro w hn _; rw [npro_eq_zero (.inr (Nat.le_zero.mp hn))]; rfl
    | succ n ih =>
      intro w hn hcon
      by_cases hgo : w.pos % 8 ≠ 0 ∧ 0 < w.rem
      · obtain ⟨hpos, hrem⟩ := hgo
        have hcond : w.consumed < 8 := by omega
        rw [whileLoop_succ (by simp [hcond, hpos, hrem]), prologueStep_eq, serveRead_countConsumed, npro_succ hpos hrem,
          update1Reads_succ, serveReads_cons]
        cases hr : serveRead s w ⟨w.pos, .one⟩ with
        | error x => rfl
        | ok w' =>
          obtain ⟨c, rfl⟩ := serveRead_ok hr
          have hrest := ih (countConsumed 1 (afterRead w ⟨w.pos, .one⟩ c)) (show w.rem - 1 ≤ n by omega)
            (show w.consumed + 1 ≤ (w.pos + 1 + 7) % 8 by omega)
          rw [serveReads_countConsumed, map_countConsumed_twice] at hrest
          exact hrest
      · rw [whileLoop_stop (by simp only [Bool.and_eq_false_iff, decide_eq_false_iff_not]; omega),
          npro_eq_zero (by omega)]
        rfl
  exact hloop _ w (Nat.le_refl _) (by omega)

/-- A loop that serves what `plan` asks for, run after the requests `rs`, adds its requests to them. -/
theorem serveReads_bind_plan {s : State} {plan : Nat → Nat → List DmemRead} {f : Work → Except Halt Work}
    (hf : ∀ v, f v = serveReads s (plan v.pos v.rem) v) (rs : List DmemRead) (n : Nat) (w : Work) :
    ((serveReads s rs w).map (countConsumed n)).bind f =
      (serveReads s (rs ++ plan (w.pos + bytesOf rs) (w.rem - bytesOf rs)) w).map (countConsumed n) := by
  rw [serveReads_append]
  cases hr : serveReads s rs w with
  | error x => rfl
  | ok v =>
    obtain ⟨hpos, hrem, -⟩ := serveReads_ok hr
    rw [← hpos, ← hrem]
    exact (hf (countConsumed n v)).trans (serveReads_countConsumed s n (plan v.pos v.rem) v)

/-- The three phases serve the requests of `UPDATE8` (42_updater_slice8 R114, R118). -/
theorem threePhases_eq (s : State) {w : Work} (h : w.consumed = 0) :
    threePhases s w = (serveReads s (update8Reads w.pos w.rem) w).map (countConsumed (npro w.pos w.rem)) := by
  have hrest : w.rem - (npro w.pos w.rem + 8 * nbulk w.pos w.rem) = nepi w.pos w.rem := by
    have := phaseCounts_add w.pos w.rem
    omega
  rw [threePhases, phase1_eq s h, serveReads_bind_plan (plan := fun pos rem => wordReads pos (rem / 8)) (phase2_eq s),
    serveReads_bind_plan (f := phase3 s) (byteLoop_eq s), update8Reads_eq, bytesOf_append, bytesOf_update1Reads,
    bytesOf_wordReads]
  show (serveReads s (_ ++ update1Reads _ (w.rem - (_ + 8 * nbulk w.pos w.rem))) w).map _ = _
  rw [hrest, ← Nat.add_assoc]
  rfl

theorem finishUpdate_map_countConsumed (s : State) (n : Nat) (r : Except Halt Work) :
    finishUpdate s (r.map (countConsumed n)) = finishUpdate s r := by
  cases r <;> rfl

theorem inRange_iff (aw : Nat) (addr : Addr) (len : Len) :
    inRange aw addr len = true ↔ addr.toNat + len.toNat ≤ 2 ^ aw := decide_eq_true_iff

/-- An update in range, in either mode, is `ensureBuilt`, then its requests served in order, then the end. -/
theorem exec_updateOp_inRange (wide : Bool) (crc : Word) {addr : Addr} {len : Len} (s : State)
    (h : addr.toNat + len.toNat ≤ 2 ^ Config.aw) :
    exec (updateOp wide crc addr len) s =
      finishUpdate (ensureBuilt s)
        (serveReads (ensureBuilt s) (updateReads wide addr len) (startWork crc addr len)) := by
  rw [exec_updateOp, if_pos ((inRange_iff ..).mpr h)]
  cases wide with
  | false => exact congrArg _ (byteLoop_eq _ _)
  | true => exact (congrArg _ (threePhases_eq _ rfl)).trans (finishUpdate_map_countConsumed ..)

theorem exec_updateOp_outOfRange (wide : Bool) (crc : Word) {addr : Addr} {len : Len} (s : State)
    (h : 2 ^ Config.aw < addr.toNat + len.toNat) : exec (updateOp wide crc addr len) s = .next (refuse .range s) := by
  rw [exec_updateOp, if_neg (by rw [inRange_iff]; exact Nat.not_le.mpr h)]

/-! ### How far the requests are served -/

theorem serveRead_stuck {s : State} {w : Work} {r x : DmemRead} {rs : List DmemRead}
    (h : serveRead s w r = .error (.stuck x rs)) : x = r ∧ rs = w.reads := by
  rcases serveRead_cases s w r with ⟨-, c, -, hs⟩ | ⟨-, hs⟩ | ⟨-, f, -, hs⟩
  · cases hs.symm.trans h
  · cases hs.symm.trans h
    exact ⟨rfl, rfl⟩
  · cases hs.symm.trans h

/-- A run is stuck at one of its requests, after those before it. -/
theorem serveReads_stuck {s : State} {rs : List DmemRead} {w : Work} {x : DmemRead} {issued : List DmemRead}
    (h : serveReads s rs w = .error (.stuck x issued)) :
    ∃ before after, rs = before ++ x :: after ∧ issued = w.reads ++ before := by
  induction rs generalizing w with
  | nil => cases h
  | cons r rs ih =>
    rw [serveReads_cons] at h
    cases hr : serveRead s w r with
    | error y =>
      rw [hr] at h
      cases h
      obtain ⟨rfl, rfl⟩ := serveRead_stuck hr
      exact ⟨[], rs, rfl, (List.append_nil _).symm⟩
    | ok w1 =>
      rw [hr] at h
      obtain ⟨before, after, rfl, rfl⟩ := ih h
      obtain ⟨c, rfl⟩ := serveRead_ok hr
      exact ⟨r :: before, after, rfl, by simp [afterRead]⟩

/-! ### Over a built table -/

/-- The value of the fold of a request over a built table. -/
def readFold (m : Memory) (crc : Word) (r : DmemRead) : Word :=
  match r.width with
  | .one => byteFold crc (memRead1 m r.addr)
  | .eight => wordFold crc (memRead8 m r.addr)

/-- Over a built table a word fold has the value of `wordFold` (42_updater_slice8 R110). -/
theorem fold8_of_built {t : Table} (h : TableBuilt t) (crc w : Word) : fold8 t crc w = .ok (wordFold crc w) := by
  simp only [fold8, laneXor, laneLookup, readEntry_of_built h]
  rfl

theorem foldRead_of_built {s : State} (h : TableBuilt s.table) (crc : Word) (r : DmemRead) :
    foldRead s crc r = .ok (readFold s.dmem crc r) := by
  obtain ⟨addr, width⟩ := r
  cases width with
  | one => exact fold1_of_built h crc _
  | eight => exact fold8_of_built h crc _

theorem serveRead_of_admitted {s : State} (hb : TableBuilt s.table) {r : DmemRead} (ha : admits s.denied r = true)
    (w : Work) : serveRead s w r = .ok (afterRead w r (readFold s.dmem w.crc r)) := by
  rcases serveRead_cases s w r with ⟨-, c, hf, hs⟩ | ⟨hn, -⟩ | ⟨-, f, hf, -⟩
  · cases hf.symm.trans (foldRead_of_built hb w.crc r)
    exact hs
  · cases ha.symm.trans hn
  · cases hf.symm.trans (foldRead_of_built hb w.crc r)

/-- Over a built table the requests the platform admits are all served, and folded in order. -/
theorem serveReads_of_admitted {s : State} (hb : TableBuilt s.table) {rs : List DmemRead}
    (ha : AdmitsAll s.denied rs) (w : Work) :
    ∃ w', serveReads s rs w = .ok w' ∧ w'.reads = w.reads ++ rs ∧ w'.crc = rs.foldl (readFold s.dmem) w.crc := by
  induction rs generalizing w with
  | nil => exact ⟨w, rfl, (List.append_nil _).symm, rfl⟩
  | cons r rs ih =>
    obtain ⟨hr, hrs⟩ := List.forall_mem_cons.mp ha
    rw [serveReads_cons, serveRead_of_admitted hb hr]
    obtain ⟨w', hw', hreads, hcrc⟩ := ih hrs (afterRead w r (readFold s.dmem w.crc r))
    exact ⟨w', hw', by rw [hreads]; simp [afterRead], hcrc⟩

/-- Over a built table a run is stuck at its first request that is not admitted. -/
theorem serveReads_of_denied {s : State} (hb : TableBuilt s.table) {before after : List DmemRead} {r : DmemRead}
    (ha : AdmitsAll s.denied before) (hr : admits s.denied r = false) (w : Work) :
    serveReads s (before ++ r :: after) w = .error (.stuck r (w.reads ++ before)) := by
  obtain ⟨w1, hw1, hreads, -⟩ := serveReads_of_admitted hb ha w
  have hstuck : serveRead s w1 r = .error (.stuck r w1.reads) := by
    rcases serveRead_cases s w1 r with ⟨hy, -⟩ | ⟨-, hs⟩ | ⟨hy, -⟩
    · cases hr.symm.trans hy
    · exact hs
    · cases hr.symm.trans hy
  rw [serveReads_append, hw1, ← hreads]
  exact (serveReads_cons ..).trans (congrArg (Except.bind · _) hstuck)

/-! ### What an operation reads, and where it is stuck -/

/-- Over a sound table an update in range whose requests are all admitted issues them and responds their fold. -/
theorem exec_updateOp_of_admitted (wide : Bool) (crc : Word) {addr : Addr} {len : Len} {s : State}
    (hsound : TableSound s) (hrange : addr.toNat + len.toNat ≤ 2 ^ Config.aw)
    (ha : AdmitsAll s.denied (updateReads wide addr len)) :
    exec (updateOp wide crc addr len) s =
      .next (respond (.value ((updateReads wide addr len).foldl (readFold s.dmem) crc))
        (logReads (updateReads wide addr len) (ensureBuilt s))) := by
  rw [← ensureBuilt_denied s] at ha
  obtain ⟨w, hw, hreads, hcrc⟩ := serveReads_of_admitted (ensureBuilt_built hsound) ha (startWork crc addr len)
  rw [exec_updateOp_inRange wide crc s hrange, hw, finishUpdate, hreads, hcrc, ensureBuilt_dmem]
  rfl

/-- Settles O38: the requests are served in order, and they cover the range. -/
theorem updateReadsExactlyItsBytes : Obligations.UpdateReadsExactlyItsBytes := by
  intro wide s crc addr len hsound hrange ha
  refine ⟨(updateReads wide addr len).foldl (readFold s.dmem) crc, _, updateReads wide addr len,
    exec_updateOp_of_admitted wide crc hsound hrange ha, by simp, ?_, ?_⟩
  · rw [covered_updateReads, List.range'_eq_map_range]
  · rintro rfl
    simp [updateReads, update1Reads]

/-- Settles O41: the run is stuck at that request, after those before it. -/
theorem stuckAtFirstUnadmittedRead : Obligations.StuckAtFirstUnadmittedRead := by
  intro wide s crc addr len before after r hsound hrange hreads hbefore hr
  rw [← ensureBuilt_denied s] at hbefore hr
  refine ⟨stall r (logReads before (ensureBuilt s)), ?_, engineBuilt_of_pair rfl rfl, ⟨?_, ?_, ?_⟩, ?_, ?_, rfl⟩
  · rw [exec_updateOp_inRange wide crc s hrange, hreads, serveReads_of_denied (ensureBuilt_built hsound) hbefore hr]
    rfl
  all_goals simp

/-- An update in range that answers a next state has issued its first requests, all or up to the one it is stuck at. -/
theorem exec_updateOp_issued {wide : Bool} {crc : Word} {addr : Addr} {len : Len} {s t : State}
    (hrange : addr.toNat + len.toNat ≤ 2 ^ Config.aw) (h : exec (updateOp wide crc addr len) s = .next t) :
    ∃ rs rest, updateReads wide addr len = rs ++ rest ∧
      ((∃ c, t = respond (.value c) (logReads rs (ensureBuilt s))) ∨
        ∃ x, t = stall x (logReads rs (ensureBuilt s))) := by
  rw [exec_updateOp_inRange wide crc s hrange] at h
  rcases finishUpdate_next h with ⟨w, hw, rfl⟩ | ⟨x, rs, hx, rfl⟩
  · obtain ⟨-, -, hreads⟩ := serveReads_ok hw
    exact ⟨w.reads, [], by simp [hreads, startWork], .inl ⟨_, rfl⟩⟩
  · obtain ⟨before, after, heq, hrs⟩ := serveReads_stuck hx
    exact ⟨rs, x :: after, by rw [hrs]; exact heq, .inr ⟨x, rfl⟩⟩

/-- Settles O40: the requests issued are among those of the update, which cover its range and no more. -/
theorem rangePreconditionDecides : Obligations.RangePreconditionDecides := by
  intro wide s crc addr len
  refine ⟨exec_updateOp_outOfRange wide crc s, fun hrange t ht => ?_⟩
  obtain ⟨rs, rest, hreads, hend⟩ := exec_updateOp_issued hrange ht
  have hinside : ∀ r ∈ rs, ∀ x ∈ covered r, addr.toNat ≤ x ∧ x < addr.toNat + len.toNat := by
    intro r hr x hx
    have hx' : x ∈ (updateReads wide addr len).flatMap covered :=
      List.mem_flatMap.mpr ⟨r, by rw [hreads]; exact List.mem_append_left rest hr, hx⟩
    rwa [covered_updateReads, List.mem_range'_1] at hx'
  rcases hend with ⟨c, rfl⟩ | ⟨x, rfl⟩
  · exact ⟨by simp, rs.map .read ++ [.respond (.value c)], by simp, fun r hr => hinside r (by simpa using hr)⟩
  · exact ⟨by simp, rs.map .read, by simp, fun r hr => hinside r (by simpa using hr)⟩

/-- What the end of a safe run adds to the history, and where it leaves the engine stuck. -/
theorem finishUpdate_issues {s t : State} {r : Except Halt Work} (hr : SafeEnd s (SafeWork s) r)
    (h : finishUpdate s r = .next t) :
    ∃ ev, t.trace = s.trace ++ ev ∧ (∀ r, .read r ∈ ev → ReadOk r ∧ admits s.denied r = true) ∧
      (t.stalled = s.stalled ∨ ∃ r, t.stalled = some r ∧ ReadOk r ∧ admits s.denied r = false) := by
  rcases finishUpdate_next h with ⟨w, rfl, rfl⟩ | ⟨x, rs, rfl, rfl⟩
  · have hw : SafeWork s w := hr
    exact ⟨w.reads.map .read ++ [.respond (.value w.crc)], by simp, fun q hq => hw.reads q (by simpa using hq),
      .inl rfl⟩
  · obtain ⟨hok, ha, hrs⟩ := hr
    exact ⟨rs.map .read, rfl, fun q hq => hrs q (by simpa using hq), .inr ⟨x, rfl, hok, ha⟩⟩

/-- What an operation adds to the history, and where it leaves the engine stuck: `INIT` and a refused update read
nothing, and the run of an accepted update is safe. -/
theorem exec_issues {i : Instr} {s t : State} (h : exec i s = .next t) :
    ∃ ev, t.trace = s.trace ++ ev ∧ (∀ r, .read r ∈ ev → ReadOk r ∧ admits s.denied r = true) ∧
      (t.stalled = s.stalled ∨ ∃ r, t.stalled = some r ∧ ReadOk r ∧ admits s.denied r = false) := by
  rcases exec_next_cases h with ⟨-, rfl⟩ | ⟨-, rfl⟩ | ⟨wide, crc, addr, len, -, hr, hf⟩
  · exact ⟨[.respond .ack], by simp, by simp, .inl (by simp)⟩
  · exact ⟨[], by simp, by simp, .inl rfl⟩
  · have hissued := finishUpdate_issues (updateRun_safeEnd wide _ crc hr) hf
    rwa [ensureBuilt_trace, ensureBuilt_denied, ensureBuilt_stalled] at hissued

/-- Settles O39, by what an operation adds to the history. -/
theorem issuedReadsAreAlignedAndAdmitted : Obligations.IssuedReadsAreAlignedAndAdmitted := fun _ _ _ => exec_issues

/-! ### The frame of an operation -/

theorem ensureBuilt_hostSideKept (s : State) : HostSideKept s (ensureBuilt s) :=
  ⟨ensureBuilt_dmem s, ensureBuilt_denied s, ensureBuilt_inputs s⟩

/-- The end of an update leaves the host's side and the mark alone. -/
theorem finishUpdate_frame {s t : State} {r : Except Halt Work} (h : finishUpdate s r = .next t) :
    HostSideKept s t ∧ t.refusals = s.refusals := by
  rcases finishUpdate_next h with ⟨w, -, rfl⟩ | ⟨x, rs, -, rfl⟩
  · exact ⟨⟨rfl, rfl, rfl⟩, rfl⟩
  · exact ⟨⟨rfl, rfl, rfl⟩, rfl⟩

theorem HostSideKept.trans {s t u : State} (h : HostSideKept s t) (h' : HostSideKept t u) : HostSideKept s u :=
  ⟨h'.dmem.trans h.dmem, h'.denied.trans h.denied, h'.inputs.trans h.inputs⟩

theorem exec_hostSideKept {i : Instr} {s t : State} (h : exec i s = .next t) : HostSideKept s t := by
  rcases exec_next_cases h with ⟨-, rfl⟩ | ⟨-, rfl⟩ | ⟨wide, crc, addr, len, -, -, hf⟩
  · exact (ensureBuilt_hostSideKept s).trans ⟨rfl, rfl, rfl⟩
  · exact ⟨rfl, rfl, rfl⟩
  · exact (ensureBuilt_hostSideKept s).trans (finishUpdate_frame hf).1

theorem exec_refusals_of_accepted {i : Instr} {s t : State} (ha : accepted i = true) (h : exec i s = .next t) :
    t.refusals = s.refusals := by
  rcases exec_next_cases h with ⟨-, rfl⟩ | ⟨hn, -⟩ | ⟨wide, crc, addr, len, -, -, hf⟩
  · simp
  · cases ha.symm.trans hn
  · exact (finishUpdate_frame hf).2.trans (ensureBuilt_refusals s)

/-- Settles O43, by what an accepted operation and a refused one leave. -/
theorem operationFrame : Obligations.OperationFrame := by
  intro i s t h
  have hhost := exec_hostSideKept h
  obtain ⟨ev, htrace, -⟩ := exec_issues h
  refine ⟨hhost, fun a => by rw [hhost.dmem], ⟨ev, htrace⟩, ?_, fun ha => exec_refusals_of_accepted ha h, ?_⟩
  · intro hflag
    rcases exec_engine h with ⟨-, rfl⟩ | ⟨-, hbuilt⟩
    · exact ⟨hflag, rfl⟩
    · exact ⟨hbuilt.flag, hbuilt.kept hflag⟩
  · intro hn
    rcases exec_engine h with ⟨-, rfl⟩ | ⟨ha, -⟩
    · exact ⟨rfl, rfl, rfl, rfl⟩
    · cases hn.symm.trans ha

end Sys2Proof.Machine

/-!
### The statements of 30_encoding

The decoder is said once, both updates together (`decodeAt_update`, `decodeAt_eq_ok`): an update is the op word of its
mode, then the width checks. A byte fold and a word fold have their values of `fold1_of_built` and `fold8_of_built`; what is added
here is which bits of the accumulator are the indices (R66, R67).
-/

namespace Sys2Proof.Machine

/-! ### Encoding and decoding, both updates together -/

/-- The op word of an update in the mode chosen (30_encoding R63). -/
def updateOpWord (wide : Bool) : Word := if wide then 2 else 1

theorem eq_updateOpWord_iff (op : Word) : (∃ wide, op = updateOpWord wide) ↔ op = 1 ∨ op = 2 :=
  Bool.exists_bool

theorem encode_updateOp (wide : Bool) (crc : Word) (addr : Addr) (len : Len) :
    encode (updateOp wide crc addr len) = formatC (updateOpWord wide) crc addr len := by
  cases wide <;> rfl

theorem wellFormedAt_updateOp (aw lenw : Nat) (wide : Bool) (crc : Word) (addr : Addr) (len : Len) :
    wellFormedAt aw lenw (updateOp wide crc addr len) = operandsFit aw lenw addr len := by
  cases wide <;> rfl

theorem updateOp_ne_init (wide : Bool) (crc : Word) (addr : Addr) (len : Len) :
    updateOp wide crc addr len ≠ .init := by
  cases wide <;> exact nofun

theorem operandsFit_iff (aw lenw : Nat) (addr : Addr) (len : Len) :
    operandsFit aw lenw addr len = true ↔ addr.toNat < 2 ^ aw ∧ len.toNat < 2 ^ lenw := by
  simp only [operandsFit, Bool.and_eq_true, decide_eq_true_eq]

section Decoder

variable {aw lenw : Nat} {addr : Addr} {len : Len}

theorem checkWidths_of_addr_wide (i : Instr) (h : 2 ^ aw ≤ addr.toNat) :
    checkWidths aw lenw addr len i = .error .addrWidth := if_pos h

theorem checkWidths_of_len_wide (i : Instr) (ha : addr.toNat < 2 ^ aw) (hl : 2 ^ lenw ≤ len.toNat) :
    checkWidths aw lenw addr len i = .error .lenWidth := by
  rw [checkWidths, if_neg (Nat.not_le.mpr ha), if_pos hl]

theorem checkWidths_of_fit (i : Instr) (ha : addr.toNat < 2 ^ aw) (hl : len.toNat < 2 ^ lenw) :
    checkWidths aw lenw addr len i = .ok i := by
  rw [checkWidths, if_neg (Nat.not_le.mpr ha), if_neg (Nat.not_le.mpr hl)]

/-- The width checks let an operation through only as it is, and only with operands that fit. -/
theorem checkWidths_eq_ok {i j : Instr} (h : checkWidths aw lenw addr len i = .ok j) :
    operandsFit aw lenw addr len = true ∧ i = j := by
  rw [operandsFit_iff]
  unfold checkWidths at h
  split at h
  next => cases h
  next ha =>
    split at h
    next => cases h
    next hl =>
      cases h
      exact ⟨⟨Nat.not_le.mp ha, Nat.not_le.mp hl⟩, rfl⟩

variable {w : Command}

theorem decodeAt_init (h : cmdOpWord w = 0) : decodeAt aw lenw w = .ok .init := if_pos h

theorem decodeAt_update {wide : Bool} (h : cmdOpWord w = updateOpWord wide) :
    decodeAt aw lenw w =
      checkWidths aw lenw (cmdAddr w) (cmdLen w) (updateOp wide (cmdCrc w) (cmdAddr w) (cmdLen w)) := by
  rw [decodeAt, h]
  cases wide <;> rfl

theorem decodeAt_reserved (h0 : cmdOpWord w ≠ 0) (h1 : cmdOpWord w ≠ 1) (h2 : cmdOpWord w ≠ 2) :
    decodeAt aw lenw w = .error .opWord := by
  rw [decodeAt, if_neg h0, if_neg h1, if_neg h2]

/-- A word that decodes is `INIT` by its op word, or an update in the mode of its op word, with operands that fit. -/
theorem decodeAt_eq_ok {i : Instr} (h : decodeAt aw lenw w = .ok i) :
    (cmdOpWord w = 0 ∧ i = .init) ∨
    ∃ wide, cmdOpWord w = updateOpWord wide ∧ operandsFit aw lenw (cmdAddr w) (cmdLen w) = true ∧
      i = updateOp wide (cmdCrc w) (cmdAddr w) (cmdLen w) := by
  by_cases h0 : cmdOpWord w = 0
  · rw [decodeAt_init h0] at h
    cases h
    exact .inl ⟨h0, rfl⟩
  by_cases h12 : cmdOpWord w = 1 ∨ cmdOpWord w = 2
  · obtain ⟨wide, hop⟩ := (eq_updateOpWord_iff _).mpr h12
    rw [decodeAt_update hop] at h
    obtain ⟨hfit, hi⟩ := checkWidths_eq_ok h
    exact .inr ⟨wide, hop, hfit, hi.symm⟩
  · obtain ⟨h1, h2⟩ := not_or.mp h12
    rw [decodeAt_reserved h0 h1 h2] at h
    cases h

end Decoder

theorem decodeAt_encode {aw lenw : Nat} {i : Instr} (h : wellFormedAt aw lenw i = true) :
    decodeAt aw lenw (encode i) = .ok i := by
  rcases instr_cases i with rfl | ⟨wide, crc, addr, len, rfl⟩
  · exact decodeAt_init (cmdOpWord_formatC 0 0 0 0)
  · rw [wellFormedAt_updateOp, operandsFit_iff] at h
    obtain ⟨ha, hl⟩ := h
    rw [encode_updateOp, decodeAt_update (cmdOpWord_formatC ..), cmdCrc_formatC, cmdAddr_formatC, cmdLen_formatC,
      checkWidths_of_fit _ ha hl]

/-- Settles O1: a command is its four fields laid out, and each field of a layout is found again. -/
theorem decodeEncodeAgree : Obligations.DecodeEncodeAgree := by
  refine fun aw lenw => ⟨fun i => decodeAt_encode, fun w i h => ?_⟩
  rcases decodeAt_eq_ok h with ⟨h0, rfl⟩ | ⟨wide, hop, hfit, rfl⟩
  · exact ⟨rfl, fun _ => h0, fun hne => absurd rfl hne⟩
  · refine ⟨(wellFormedAt_updateOp ..).trans hfit, fun hinit => absurd hinit (updateOp_ne_init wide _ _ _), fun _ => ?_⟩
    rw [encode_updateOp, ← hop, formatC_fields]

/-- Settles O2, clause by clause: the op word, then the width checks. -/
theorem decodingByOpWord : Obligations.DecodingByOpWord := by
  rintro aw lenw w _ _ _ _ rfl rfl rfl rfl
  refine ⟨decodeAt_init, fun h1 ha hl => ?_, fun h2 ha hl => ?_, fun h12 ha => ?_, fun h12 ha hl => ?_,
    decodeAt_reserved⟩
  · exact (decodeAt_update (wide := false) h1).trans (checkWidths_of_fit _ ha hl)
  · exact (decodeAt_update (wide := true) h2).trans (checkWidths_of_fit _ ha hl)
  · obtain ⟨wide, hop⟩ := (eq_updateOpWord_iff _).mpr h12
    exact (decodeAt_update hop).trans (checkWidths_of_addr_wide _ ha)
  · obtain ⟨wide, hop⟩ := (eq_updateOpWord_iff _).mpr h12
    exact (decodeAt_update hop).trans (checkWidths_of_len_wide _ ha hl)

/-- Settles O3: seven closed words, each decoded. -/
theorem knownCommandWordsDecode : Obligations.KnownCommandWordsDecode := by
  unfold Obligations.KnownCommandWordsDecode
  decide

/-! ### The command port -/

/-- Settles O4: a word with op word 0 decodes to `INIT`. -/
theorem initIgnoresItsOperandFields : Obligations.InitIgnoresItsOperandFields :=
  fun _ _ _ hs hi h0 => step_command hs hi (decodeAt_init h0)

theorem step_reserved {s : State} {w : Command} {rest : List HostInput} {why : Reserved} (hs : s.stalled = none)
    (hi : s.inputs = .command w :: rest) (hd : decode w = .error why) :
    step s = .next (refuse (.reservedCommand why) { s with inputs := rest }) := by
  rw [step, takeMove_command hs hi, takeCommand, hd]

/-- Settles O6: refusing is marking. -/
theorem reservedCommandIsRefused : Obligations.ReservedCommandIsRefused :=
  fun _ _ _ _ => step_reserved

/-- Settles O47: `INIT` acknowledges, a refused update does nothing at the port, and an accepted one ends by a response
or stuck. -/
theorem exactlyOneResponse : Obligations.ExactlyOneResponse := by
  intro i s t hs h
  rcases exec_next_cases h with ⟨rfl, rfl⟩ | ⟨hn, rfl⟩ | ⟨wide, crc, addr, len, rfl, hr, hf⟩
  · exact ⟨[], .inr (.inr ⟨rfl, by simp [hs], .ack, by simp, by simp⟩)⟩
  · exact ⟨[], .inl ⟨hn, rfl, hs⟩⟩
  · have ha : accepted (updateOp wide crc addr len) = true := (accepted_updateOp ..).trans hr
    rcases finishUpdate_next hf with ⟨w, -, rfl⟩ | ⟨x, rs, -, rfl⟩
    · exact ⟨w.reads, .inr (.inr ⟨ha, by simp [hs], .value w.crc, by simp, by simp [updateOp_ne_init]⟩)⟩
    · exact ⟨rs, .inr (.inl ⟨ha, by simp, by simp⟩)⟩

/-! ### The index and the value of a byte fold -/

theorem lowByte_eq (v : Word) : lowByte v = v.extractLsb' 0 8 := BitVec.setWidth_eq_extractLsb' (by omega)

/-- Only the low byte of the accumulator takes part in the index (30_encoding R66). -/
theorem idx1_eq (crc : Word) (b : Byte) : idx1 crc b = lowByte crc ^^^ b := by
  rw [idx1, lowByte, BitVec.setWidth_xor, BitVec.setWidth_setWidth_of_le _ (by omega), BitVec.setWidth_eq, lowByte]

theorem baseEntry_zero : baseEntry 0#8 = 0#64 := by decide

/-- From the accumulator 0 a byte fold is one lookup of the byte. -/
theorem byteFold_zero (b : Byte) : byteFold 0#64 b = baseEntry b := by
  rw [byteFold, idx1_eq, BitVec.zero_ushiftRight, BitVec.xor_zero, lowByte, BitVec.setWidth_zero, BitVec.zero_xor]

/-- A byte equal to the low byte of the accumulator looks up entry 0, and only the shift is left. -/
theorem byteFold_lowByte (crc : Word) : byteFold crc (lowByte crc) = crc >>> 8 := by
  rw [byteFold, idx1_eq, BitVec.xor_self, baseEntry_zero, BitVec.zero_xor]

/-- Settles O21, by the value of a byte fold over a built table. -/
theorem byteFoldIndexAndValue : Obligations.ByteFoldIndexAndValue := by
  intro t ht
  have hfold := fold1_of_built ht
  refine ⟨fun crc b => ⟨by rw [idx1_eq, lowByte_eq], _, ht 0 _, hfold crc b⟩, ?_, fun b => ⟨_, ht 0 b, ?_⟩,
    fun crc => ?_, ?_, ?_⟩
  · exact (hfold 0 0).trans (congrArg _ ((byteFold_zero 0).trans baseEntry_zero))
  · exact (hfold 0 b).trans (congrArg _ (byteFold_zero b))
  · exact (hfold crc _).trans (congrArg _ (byteFold_lowByte crc))
  · rw [hfold, show byteFold 0xFFFFFFFFFFFFFFFF 0xFF = 0x00FFFFFFFFFFFFFF by decide]
  · rw [hfold, show byteFold 0x2CB0000000000000 0x32 = 0x2E4CB00000000000 by decide]

/-! ### The lanes and the value of a word fold -/

/-- Lane `i` is byte `i` of the mixed accumulator (30_encoding R67). -/
theorem lane_eq (m : Word) (i : Fin 8) : lane m i = m.extractLsb' (8 * i.val) 8 := by
  rw [lane, lowByte, BitVec.setWidth_ushiftRight_eq_extractLsb]

theorem laneRow_val (i : Fin 8) : (laneRow i).val = 7 - i.val := by
  revert i
  decide

/-- Lane 7 is all that is left of the mixed accumulator after a shift by 56 bits. -/
theorem setWidth_lane_seven (m : Word) : (lane m 7).setWidth 64 = m >>> 56 := by
  show ((m >>> 56).setWidth 8).setWidth 64 = m >>> 56
  apply BitVec.eq_of_toNat_eq
  rw [BitVec.toNat_setWidth, BitVec.toNat_setWidth, BitVec.toNat_ushiftRight, Nat.shiftRight_eq_div_pow]
  omega

theorem tableValue_zero (k : Nat) : tableValue k 0#8 = 0#64 := by
  induction k with
  | zero => exact baseEntry_zero
  | succ k ih =>
    rw [tableValue, ih, lowByte, BitVec.setWidth_zero, baseEntry_zero, BitVec.zero_xor, BitVec.zero_ushiftRight]

/-- The eight lookups of a word fold, each at its byte of the mixed accumulator (42_updater_slice8 R110). -/
theorem wordFold_eq (crc w : Word) :
    wordFold crc w =
      tableValue 7 ((crc ^^^ w).extractLsb' 0 8) ^^^ tableValue 6 ((crc ^^^ w).extractLsb' 8 8) ^^^
        tableValue 5 ((crc ^^^ w).extractLsb' 16 8) ^^^ tableValue 4 ((crc ^^^ w).extractLsb' 24 8) ^^^
        tableValue 3 ((crc ^^^ w).extractLsb' 32 8) ^^^ tableValue 2 ((crc ^^^ w).extractLsb' 40 8) ^^^
        tableValue 1 ((crc ^^^ w).extractLsb' 48 8) ^^^ tableValue 0 ((crc ^^^ w).extractLsb' 56 8) := by
  simp only [wordFold, lane_eq]
  rfl

/-- A word equal to the accumulator looks up entry 0 of every row. -/
theorem wordFold_self (c : Word) : wordFold c c = 0#64 := by
  rw [wordFold_eq, BitVec.xor_self]
  simp only [BitVec.extractLsb'_zero, tableValue_zero, BitVec.xor_zero]

/-- Settles O22, by the value of a word fold over a built table. -/
theorem wordFoldLanesAndValue : Obligations.WordFoldLanesAndValue := by
  refine ⟨fun m i => ⟨lane_eq m i, laneRow_val i⟩, setWidth_lane_seven, fun t ht => ?_⟩
  have hfold := fold8_of_built ht
  refine ⟨?_, fun c => ?_, fun c w c' w' h => ?_, ?_⟩
  · rintro crc w _ rfl
    exact ⟨_, _, _, _, _, _, _, _, ht 7 _, ht 6 _, ht 5 _, ht 4 _, ht 3 _, ht 2 _, ht 1 _, ht 0 _,
      (hfold crc w).trans (congrArg _ (wordFold_eq crc w))⟩
  · exact (hfold c c).trans (congrArg _ (wordFold_self c))
  · rw [fold8, fold8, h]
  · rw [hfold, show wordFold 0 0x3837363534333231 = 0xD5A9388A5BEFFE4C by decide +kernel]

end Sys2Proof.Machine

/-!
### The statements of 40_table_builder

A round is said once, bit by bit (`polyRound_getLsbD`): that the division is linear, loses nothing and leaves the low
bits of a base entry 0 are read off it. Eight rounds of a word are then one lookup and a shift (`polyRounds_eight`),
and each slice row is a byte fold of the row before it (`tableValue_succ`).
-/

namespace Sys2Proof.Machine

/-! ### INIT -/

/-- Settles O14, by what `ensureBuilt` does to the engine's pair and what it leaves alone. -/
theorem initBuildsAndAcknowledges : Obligations.InitBuildsAndAcknowledges := by
  intro s
  obtain ⟨hflag, hkept, hbuilt⟩ := ensureBuilt_engine s
  exact ⟨_, exec_init s, hflag, hbuilt, hkept, by simp, ensureBuilt_dmem s, ensureBuilt_denied s,
    ensureBuilt_inputs s, ensureBuilt_refusals s, ensureBuilt_stalled s⟩

theorem exec_init_of_flag {s : State} (h : s.initFlag = true) : exec .init s = .next (respond .ack s) := by
  rw [exec_init, ensureBuilt_of_flag h]

/-- Settles O16: an `INIT` leaves the flag set, and with the flag set it only acknowledges. -/
theorem secondInitIsNoOp : Obligations.SecondInitIsNoOp := by
  refine ⟨fun s hs => exec_init_of_flag hs, fun s t h => exec_init_of_flag ?_⟩
  rw [exec_init] at h
  cases h
  exact ensureBuilt_initFlag s

/-- Settles O17: both tables are built, and two built tables are one table. -/
theorem buildIsReproducible : Obligations.BuildIsReproducible := by
  intro s s' t t' hs hs' h h'
  rw [exec_init] at h h'
  cases h
  cases h'
  exact ((ensureBuilt_engine s).built hs).unique ((ensureBuilt_engine s').built hs')

/-! ### One round, and a number of rounds -/

theorem polyRound_of_bit {v : Word} (h : v.getLsbD 0 = true) : polyRound v = (v >>> 1) ^^^ poly := if_pos h

theorem polyRound_of_no_bit {v : Word} (h : v.getLsbD 0 = false) : polyRound v = v >>> 1 :=
  if_neg (ne_true_of_eq_false h)

/-- Settles O12: the two cases are the branches of the round; the corner cases are computed. -/
theorem polyRoundAndItsCorners : Obligations.PolyRoundAndItsCorners :=
  ⟨fun _ => ⟨polyRound_of_bit, polyRound_of_no_bit⟩, by decide, by decide, by decide, by decide, by decide⟩

/-- Settles O13: `baseEntry` is defined by eight rounds. -/
theorem baseEntryIsEightRounds : Obligations.BaseEntryIsEightRounds :=
  ⟨fun _ => rfl, baseEntry_zero, by decide, by decide, by decide⟩

/-- A round bit by bit: the next bit up, and the polynomial where the lowest bit is set. -/
theorem polyRound_getLsbD (v : Word) (i : Nat) :
    (polyRound v).getLsbD i = (v.getLsbD (1 + i) ^^ (v.getLsbD 0 && poly.getLsbD i)) := by
  cases h : v.getLsbD 0 with
  | true => rw [polyRound_of_bit h, BitVec.getLsbD_xor, BitVec.getLsbD_ushiftRight, Bool.true_and]
  | false => rw [polyRound_of_no_bit h, BitVec.getLsbD_ushiftRight, Bool.false_and, Bool.xor_false]

theorem polyRound_xor (v w : Word) : polyRound (v ^^^ w) = polyRound v ^^^ polyRound w := by
  apply BitVec.eq_of_getLsbD_eq
  intro i _
  simp only [polyRound_getLsbD, BitVec.getLsbD_xor, Bool.and_xor_distrib_right, Bool.xor_assoc, Bool.xor_left_comm]

/-- The shift brings a 0 to the top, so bit 63 is the polynomial's: the bit that the round shifted out. -/
theorem polyRound_getLsbD_top (v : Word) : (polyRound v).getLsbD 63 = v.getLsbD 0 := by
  rw [polyRound_getLsbD, BitVec.getLsbD_of_ge v _ (by omega), (poly_getLsbD 63).mpr (.inl rfl), Bool.false_xor,
    Bool.and_true]

/-- A round loses nothing: with the bit shifted out known, the polynomial can be taken off again. -/
theorem polyRound_injective : Function.Injective polyRound := by
  intro v w h
  have hlow : v.getLsbD 0 = w.getLsbD 0 := by rw [← polyRound_getLsbD_top, h, polyRound_getLsbD_top]
  apply BitVec.eq_of_getLsbD_eq
  intro i _
  cases i with
  | zero => exact hlow
  | succ i =>
    have hbit := congrArg (BitVec.getLsbD · i) h
    simpa only [polyRound_getLsbD, hlow, Bool.xor_left_inj, Nat.add_comm 1] using hbit

theorem polyRounds_xor (r : Nat) (v w : Word) : polyRounds r (v ^^^ w) = polyRounds r v ^^^ polyRounds r w := by
  induction r generalizing v w with
  | zero => rfl
  | succ r ih => rw [polyRounds, polyRound_xor, ih, polyRounds, polyRounds]

theorem polyRounds_injective (r : Nat) : Function.Injective (polyRounds r) := by
  induction r with
  | zero => exact fun _ _ h => h
  | succ r ih => exact ih.comp polyRound_injective

/-- The polynomial has no 1 below bit 59: so far down the rounds only shift. -/
theorem polyRounds_getLsbD {r i : Nat} (v : Word) (h : r + i ≤ 59) :
    (polyRounds r v).getLsbD i = v.getLsbD (r + i) := by
  induction r generalizing v with
  | zero => rw [polyRounds, Nat.zero_add]
  | succ r ih =>
    have hpoly : poly.getLsbD (r + i) = false := by
      rw [← Bool.not_eq_true, poly_getLsbD]
      omega
    rw [polyRounds, ih _ (by omega), polyRound_getLsbD, hpoly, Bool.and_false, Bool.xor_false]
    congr 1
    omega

/-- As many rounds as a word has low zeros only shift it. -/
theorem polyRounds_of_low_zero {r : Nat} {v : Word} (h : ∀ i < r, v.getLsbD i = false) :
    polyRounds r v = v >>> r := by
  induction r generalizing v with
  | zero => simp [polyRounds]
  | succ r ih =>
    have hshift : ∀ i < r, (v >>> 1).getLsbD i = false := by
      intro i hi
      rw [BitVec.getLsbD_ushiftRight]
      exact h _ (by omega)
    rw [polyRounds, polyRound_of_no_bit (h 0 (by omega)), ih hshift, ← BitVec.shiftRight_add, Nat.add_comm]

/-! ### One lookup replaces eight rounds -/

/-- A byte mixed into the low end of a word is shifted out by 8 bits. -/
theorem xor_byte_ushiftRight (c : Word) (b : Byte) : (c ^^^ b.setWidth 64) >>> 8 = c >>> 8 := by
  apply BitVec.eq_of_getLsbD_eq
  intro i _
  rw [BitVec.getLsbD_ushiftRight, BitVec.getLsbD_xor, BitVec.getLsbD_ushiftRight, BitVec.getLsbD_setWidth,
    BitVec.getLsbD_of_ge b _ (by omega), Bool.and_false, Bool.xor_false]

/-- Eight rounds divide the low byte away and shift the rest: by linearity, the entry of the one and the shift of the
other. -/
theorem polyRounds_eight (v : Word) : polyRounds 8 v = baseEntry (lowByte v) ^^^ (v >>> 8) := by
  have hrest : polyRounds 8 (v ^^^ (lowByte v).setWidth 64) = v >>> 8 := by
    refine (polyRounds_of_low_zero fun i hi => ?_).trans (xor_byte_ushiftRight v _)
    simp [lowByte, hi, show i < 64 by omega]
  calc polyRounds 8 v
      = polyRounds 8 ((lowByte v).setWidth 64 ^^^ (v ^^^ (lowByte v).setWidth 64)) := by
        rw [BitVec.xor_comm v, ← BitVec.xor_assoc, BitVec.xor_self, BitVec.zero_xor]
    _ = baseEntry (lowByte v) ^^^ (v >>> 8) := by rw [polyRounds_xor, hrest, baseEntry]

/-- The table-free byte step is the byte fold (41_updater_slice1 R108). -/
theorem serialFold_eq_byteFold (crc : Word) (b : Byte) : serialFold crc b = byteFold crc b := by
  rw [serialFold, polyRounds_eight, xor_byte_ushiftRight, byteFold, idx1]

/-! ### An update that responds -/

/-- Requests that were all served were all admitted. -/
theorem serveReads_admitsAll {s : State} {rs : List DmemRead} {w w' : Work} (h : serveReads s rs w = .ok w') :
    AdmitsAll s.denied rs := by
  induction rs generalizing w with
  | nil => exact fun _ => nofun
  | cons r rs ih =>
    rw [serveReads_cons] at h
    rcases serveRead_cases s w r with ⟨ha, c, -, hr⟩ | ⟨-, hr⟩ | ⟨-, f, -, hr⟩
    · rw [hr] at h
      exact List.forall_mem_cons.mpr ⟨ha, ih h⟩
    · rw [hr] at h
      cases h
    · rw [hr] at h
      cases h

/-- Over a sound table an update that responds is in range, all its requests are admitted, and its response is their
fold. -/
theorem replies_updateOp {wide : Bool} {crc c : Word} {addr : Addr} {len : Len} {s t : State} (hsound : TableSound s)
    (h : Replies (updateOp wide crc addr len) s c t) :
    addr.toNat + len.toNat ≤ 2 ^ Config.aw ∧ AdmitsAll s.denied (updateReads wide addr len) ∧
      c = (updateReads wide addr len).foldl (readFold s.dmem) crc := by
  obtain ⟨hexec, rs, htrace⟩ := h
  have hresponds : .respond (.value c) ∈ t.trace.drop s.trace.length := by simp [htrace]
  rcases Nat.lt_or_ge (2 ^ Config.aw) (addr.toNat + len.toNat) with hout | hrange
  · rw [exec_updateOp_outOfRange wide crc s hout] at hexec
    cases hexec
    simp at hresponds
  · have hrun := hexec
    rw [exec_updateOp_inRange wide crc s hrange] at hrun
    rcases finishUpdate_next hrun with ⟨w, hw, -⟩ | ⟨x, issued, -, rfl⟩
    · have ha := serveReads_admitsAll hw
      rw [ensureBuilt_denied] at ha
      rw [exec_updateOp_of_admitted wide crc hsound hrange ha] at hexec
      cases hexec
      exact ⟨hrange, ha, by simpa using hresponds⟩
    · simp at hresponds

/-! ### The response of one byte from 0 -/

/-- Settles O20: eight rounds are one lookup, and the one request of the update is one byte fold from 0. -/
theorem lookupReplacesEightRounds : Obligations.LookupReplacesEightRounds := by
  refine ⟨fun t ht => ⟨fun n => ?_, fun c b => ⟨_, ht 0 _, serialFold_eq_byteFold c b⟩⟩,
    fun s t c addr hs h => ?_⟩
  · exact (fold1_of_built ht 0 n).trans (congrArg _ (byteFold_zero n))
  · obtain ⟨-, -, hc⟩ := replies_updateOp (wide := false) hs h
    exact hc.trans (byteFold_zero _)

/-! ### Row 0 -/

theorem baseEntry_xor (a b : Byte) : baseEntry (a ^^^ b) = baseEntry a ^^^ baseEntry b := by
  rw [baseEntry, BitVec.setWidth_xor, polyRounds_xor, baseEntry, baseEntry]

theorem baseEntry_injective : Function.Injective baseEntry := by
  intro a b h
  have hwide : a.setWidth 64 = b.setWidth 64 := polyRounds_injective 8 h
  simpa using congrArg (BitVec.setWidth 8) hwide

theorem baseEntry_getLsbD_low (n : Byte) {i : Nat} (h : i ≤ 51) : (baseEntry n).getLsbD i = false := by
  rw [baseEntry, polyRounds_getLsbD _ (by omega), BitVec.getLsbD_setWidth, BitVec.getLsbD_of_ge n _ (by omega),
    Bool.and_false]

/-- Settles O18, by linearity, injectivity and the low bits of a base entry. -/
theorem baseRowFacts : Obligations.BaseRowFacts := by
  intro t ht
  exact ⟨baseEntry, ht 0, baseEntry_zero, by decide, baseEntry_xor, by decide, by decide, by decide, by decide,
    by decide, by decide, by decide, by decide, fun _ _ h => baseEntry_injective h,
    fun n _ hi => baseEntry_getLsbD_low n hi⟩

/-! ### Rows 1 to 7 -/

/-- Each row is the row before it with one more zero byte folded in (40_table_builder R83). -/
theorem tableValue_succ (k : Nat) (n : Byte) : tableValue (k + 1) n = byteFold (tableValue k n) 0 := by
  rw [tableValue, byteFold, idx1_eq, show (0 : Byte) = 0#8 from rfl, BitVec.xor_zero]

theorem crcUpdate_concat (crc : Word) (bs : List Byte) (b : Byte) :
    crcUpdate crc (bs ++ [b]) = byteFold (crcUpdate crc bs) b := List.foldl_concat ..

theorem tableValue_eq_crcUpdate (k : Nat) (n : Byte) : tableValue k n = crcUpdate 0 (n :: List.replicate k 0) := by
  induction k with
  | zero => exact (byteFold_zero n).symm
  | succ k ih => rw [tableValue_succ, ih, List.replicate_succ', ← List.cons_append, crcUpdate_concat]

theorem tableValue_xor (k : Nat) (a b : Byte) : tableValue k (a ^^^ b) = tableValue k a ^^^ tableValue k b := by
  induction k with
  | zero => exact baseEntry_xor a b
  | succ k ih =>
    simp only [tableValue, ih, lowByte, BitVec.setWidth_xor, baseEntry_xor, BitVec.ushiftRight_xor_distrib]
    ac_rfl

/-- Up to row 5 the low byte of a shifted base entry is still 0. -/
theorem lowByte_baseEntry_shifted {k : Nat} (n : Byte) (hk : k ≤ 5) : lowByte (baseEntry n >>> (8 * k)) = 0#8 := by
  apply BitVec.eq_of_getLsbD_eq
  intro i hi
  rw [lowByte, BitVec.getLsbD_setWidth, BitVec.getLsbD_ushiftRight, baseEntry_getLsbD_low n (by omega),
    Bool.and_false, BitVec.getLsbD_zero]

/-- Up to row 6 the lookup is of entry 0, and only the shift remains. -/
theorem tableValue_eq_shift {k : Nat} (n : Byte) (hk : k ≤ 6) : tableValue k n = baseEntry n >>> (8 * k) := by
  induction k with
  | zero => simp [tableValue]
  | succ k ih =>
    rw [tableValue, ih (by omega), lowByte_baseEntry_shifted n (by omega), baseEntry_zero, BitVec.zero_xor,
      ← BitVec.shiftRight_add, Nat.mul_succ]

/-- Row 7 is the first whose lookup is not of entry 0 throughout. -/
theorem tableValue_seven (n : Byte) :
    tableValue 7 n = baseEntry (lowByte (baseEntry n >>> 48)) ^^^ (baseEntry n >>> 56) := by
  rw [tableValue, tableValue_eq_shift n (by omega), ← BitVec.shiftRight_add]

/-- Settles O19, by the shift up to row 6, the recurrence and linearity. -/
theorem sliceRowFacts : Obligations.SliceRowFacts := by
  intro t ht
  refine ⟨fun k n => tableValue k.val n, ht, fun k n _ hk => tableValue_eq_shift n hk, tableValue_seven,
    fun k => tableValue_eq_crcUpdate k.val, fun k => tableValue_xor k.val, fun k => tableValue_zero k.val,
    fun k n hk => ?_, 1, ?_⟩
  · show lowByte (tableValue k.val n) = 0
    rw [tableValue_eq_shift n (by omega)]
    exact lowByte_baseEntry_shifted n hk
  · show baseEntry (lowByte (baseEntry 1 >>> 48)) ≠ 0
    rw [show baseEntry 1 = 0x01B0000000000000 by decide]
    decide

end Sys2Proof.Machine

/-!
### The statements of 41_updater_slice1

A byte fold is linear in accumulator and byte together (`byteFold_xor`): that the update is linear, that a word fold is
eight byte folds (`wordFold_eq_crcUpdate`) and so that an update in either mode folds the bytes of its range
(`exec_updateOp_responds`, `replies_crcUpdate`) follow from it. Streams are then an induction over their chunks.
-/

namespace Sys2Proof.Machine

/-! ### The update is linear -/

/-- Eight rounds are linear, so a byte fold is linear in accumulator and byte together. -/
theorem byteFold_xor (c d : Word) (a b : Byte) : byteFold (c ^^^ d) (a ^^^ b) = byteFold c a ^^^ byteFold d b := by
  simp only [← serialFold_eq_byteFold, serialFold, ← polyRounds_xor, BitVec.setWidth_xor]
  congr 1
  ac_rfl

@[simp] theorem crcUpdate_nil (crc : Word) : crcUpdate crc [] = crc := rfl

theorem crcUpdate_cons (crc : Word) (b : Byte) (bs : List Byte) :
    crcUpdate crc (b :: bs) = crcUpdate (byteFold crc b) bs := rfl

theorem crcUpdate_append (crc : Word) (bs cs : List Byte) :
    crcUpdate crc (bs ++ cs) = crcUpdate (crcUpdate crc bs) cs :=
  List.foldl_append

theorem crcUpdate_xor (c d : Word) (bs : List Byte) :
    crcUpdate (c ^^^ d) bs = crcUpdate c bs ^^^ crcUpdate d (List.replicate bs.length 0) := by
  induction bs generalizing c d with
  | nil => rfl
  | cons b bs ih =>
    have hfold : byteFold (c ^^^ d) b = byteFold c b ^^^ byteFold d 0 :=
      (congrArg _ BitVec.xor_zero.symm).trans (byteFold_xor c d b 0)
    rw [crcUpdate_cons, hfold, ih, List.length_cons, List.replicate_succ, crcUpdate_cons, crcUpdate_cons]

/-- The accumulator's part of an update, apart from the bytes' (41_updater_slice1 R109). -/
theorem crcUpdate_split (c : Word) (bs : List Byte) :
    crcUpdate c bs = crcUpdate 0 bs ^^^ crcUpdate c (List.replicate bs.length 0) :=
  (congrArg (crcUpdate · bs) BitVec.zero_xor.symm).trans (crcUpdate_xor 0 c bs)

/-- Settles O28, by linearity; the three values are computed. -/
theorem updateIsLinearInTheAccumulator : Obligations.UpdateIsLinearInTheAccumulator :=
  ⟨crcUpdate_xor, crcUpdate_split, by decide +kernel, by decide +kernel, by decide +kernel⟩

/-! ### A word fold is eight byte folds -/

/-- The low `k` bytes of a word, lowest first. -/
def wordBytes (k : Nat) (w : Word) : List Byte := (List.range k).map fun i => lowByte (w >>> (8 * i))

theorem wordBytes_succ (k : Nat) (w : Word) : wordBytes (k + 1) w = lowByte w :: wordBytes k (w >>> 8) := by
  simp [wordBytes, List.range_succ_eq_map, ← BitVec.shiftRight_add, Nat.mul_succ, Nat.add_comm 8]

/-- The bytes of the wide read are those of DMEM (20_memory R43). -/
theorem wordBytes_memRead8 (m : Memory) (a : Nat) : wordBytes 8 (memRead8 m a) = dmemBytes m a 8 := by
  refine List.map_congr_left fun i hi => ?_
  exact (lane_eq _ ⟨i, List.mem_range.mp hi⟩).trans (memRead8_byte m a _)

theorem lowByte_xor (v w : Word) : lowByte (v ^^^ w) = lowByte v ^^^ lowByte w := BitVec.setWidth_xor

/-- The low byte of `d` may be mixed into the byte instead of the accumulator; the rest of `d` is shifted. -/
theorem byteFold_xor_lowByte (c d w : Word) :
    byteFold (c ^^^ d) (lowByte w) = byteFold c (lowByte (d ^^^ w)) ^^^ (d >>> 8) := by
  have hbyte : lowByte w = lowByte (d ^^^ w) ^^^ lowByte d := by
    rw [lowByte_xor, BitVec.xor_comm, ← BitVec.xor_assoc, BitVec.xor_self, BitVec.zero_xor]
  rw [hbyte, byteFold_xor, byteFold_lowByte]

/-- So may the low `k` bytes of `d`, one in each byte of a word. -/
theorem crcUpdate_xor_wordBytes (k : Nat) (c d w : Word) :
    crcUpdate (c ^^^ d) (wordBytes k w) = crcUpdate c (wordBytes k (d ^^^ w)) ^^^ (d >>> (8 * k)) := by
  induction k generalizing c d w with
  | zero => simp [wordBytes]
  | succ k ih =>
    rw [wordBytes_succ, wordBytes_succ, crcUpdate_cons, crcUpdate_cons, byteFold_xor_lowByte, ih,
      BitVec.ushiftRight_xor_distrib, ← BitVec.shiftRight_add, Nat.mul_succ, Nat.add_comm 8]

/-- From 0, the first of the bytes contributes its entry in the row of as many bytes as follow it. -/
theorem crcUpdate_zero_cons (b : Byte) (bs : List Byte) :
    crcUpdate 0#64 (b :: bs) = tableValue bs.length b ^^^ crcUpdate 0#64 bs := by
  rw [tableValue_eq_crcUpdate, crcUpdate_cons, crcUpdate_cons, crcUpdate_split]
  exact BitVec.xor_comm _ _

/-- One word fold is eight byte folds of the bytes of the word (42_updater_slice8 R116): mix the whole accumulator into
the bytes, then take each byte's entry. -/
theorem wordFold_eq_crcUpdate (crc w : Word) : wordFold crc w = crcUpdate crc (wordBytes 8 w) := by
  have hmixed : crcUpdate crc (wordBytes 8 w) = crcUpdate 0 (wordBytes 8 (crc ^^^ w)) := by
    simpa [BitVec.ushiftRight_eq_zero] using crcUpdate_xor_wordBytes 8 0 crc w
  have hlanes : ∀ m : Word, wordBytes 8 m =
      [lane m 0, lane m 1, lane m 2, lane m 3, lane m 4, lane m 5, lane m 6, lane m 7] := fun _ => rfl
  rw [hmixed, hlanes]
  simp [crcUpdate_zero_cons, wordFold, BitVec.xor_assoc]

/-! ### An update in either mode folds the bytes of its range -/

/-- A request folds the bytes it covers, in order. -/
theorem readFold_eq_crcUpdate (m : Memory) (crc : Word) (r : DmemRead) :
    readFold m crc r = crcUpdate crc ((covered r).map (memRead1 m)) := by
  obtain ⟨addr, width⟩ := r
  cases width with
  | one => rfl
  | eight =>
    refine (wordFold_eq_crcUpdate crc _).trans ?_
    rw [wordBytes_memRead8]
    rfl

theorem foldl_readFold (m : Memory) (crc : Word) (rs : List DmemRead) :
    rs.foldl (readFold m) crc = crcUpdate crc ((rs.flatMap covered).map (memRead1 m)) := by
  induction rs generalizing crc with
  | nil => rfl
  | cons r rs ih =>
    rw [List.foldl_cons, ih, readFold_eq_crcUpdate, List.flatMap_cons, List.map_append, crcUpdate_append]

/-- The requests of either mode cover the same range, so they fold to the same value (42_updater_slice8 R115). -/
theorem foldl_readFold_updateReads (wide : Bool) (m : Memory) (crc : Word) (addr : Addr) (len : Len) :
    (updateReads wide addr len).foldl (readFold m) crc = crcUpdate crc (dmemBytes m addr.toNat len.toNat) := by
  rw [foldl_readFold, covered_updateReads, List.range'_eq_map_range, List.map_map]
  rfl

/-- The state an update leaves by its response, with all that it leaves unchanged. -/
theorem responded_ensureBuilt (s : State) (rs : List DmemRead) (crc : Word) :
    Responded s (respond (.value crc) (logReads rs (ensureBuilt s))) rs crc where
  engine := engineBuilt_of_pair rfl rfl
  host := (ensureBuilt_hostSideKept s).trans ⟨rfl, rfl, rfl⟩
  trace := by simp
  refusals := ensureBuilt_refusals s
  stalled := ensureBuilt_stalled s

/-- Over a sound table an update in range whose requests are all admitted completes, and responds the fold of its
bytes. -/
theorem exec_updateOp_responds (wide : Bool) (crc : Word) {addr : Addr} {len : Len} {s : State}
    (hsound : TableSound s) (hrange : addr.toNat + len.toNat ≤ 2 ^ Config.aw)
    (ha : AdmitsAll s.denied (updateReads wide addr len)) :
    ∃ t, exec (updateOp wide crc addr len) s = .next t ∧
      Responded s t (updateReads wide addr len) (crcUpdate crc (dmemBytes s.dmem addr.toNat len.toNat)) := by
  refine ⟨_, exec_updateOp_of_admitted wide crc hsound hrange ha, ?_⟩
  rw [foldl_readFold_updateReads]
  exact responded_ensureBuilt s _ _

/-- Settles O25, in the narrow mode. -/
theorem update1Responds : Obligations.Update1Responds := fun s crc _ _ =>
  ⟨exec_updateOp_outOfRange false crc s, fun hrange hsound ha => exec_updateOp_responds false crc hsound hrange ha⟩

theorem updateReads_zero (wide : Bool) (addr : Addr) : updateReads wide addr 0 = [] := by
  cases wide with
  | false => rfl
  | true => simp [updateReads, update8Reads, npro, nbulk, nepi]

/-- Settles O26: an update of no bytes is in range wherever it stands and has no request to serve. -/
theorem zeroLengthIsIdentity : Obligations.ZeroLengthIsIdentity := by
  intro wide s crc addr
  have hrange : addr.toNat + (0 : Len).toNat ≤ 2 ^ Config.aw := Nat.le_of_lt addr.isLt
  refine ⟨_, ?_, responded_ensureBuilt s [] crc⟩
  rw [exec_updateOp_inRange wide crc s hrange, updateReads_zero]
  rfl

/-! ### The response of an update -/

/-- Over a sound table the response of an update is the fold of its bytes, in either mode. -/
theorem replies_crcUpdate {wide : Bool} {crc c : Word} {addr : Addr} {len : Len} {s t : State} (hsound : TableSound s)
    (h : Replies (updateOp wide crc addr len) s c t) : c = crcUpdate crc (dmemBytes s.dmem addr.toNat len.toNat) := by
  obtain ⟨-, -, hc⟩ := replies_updateOp hsound h
  rw [hc, foldl_readFold_updateReads]

/-- Settles O27: over a built table a byte fold is eight rounds, and the response is the fold of the bytes. -/
theorem update1IsBitSerialDivision : Obligations.Update1IsBitSerialDivision := by
  refine ⟨fun t ht crc b => (fold1_of_built ht crc b).trans (congrArg _ (serialFold_eq_byteFold crc b).symm),
    fun s t crc c addr len hsound h => ?_⟩
  rw [show serialFold = byteFold from funext₂ serialFold_eq_byteFold]
  exact replies_crcUpdate (wide := false) hsound h

/-- Settles O37: both responses are the fold of the same bytes into the same accumulator. -/
theorem responseDependsOnCrcAndBytesOnly : Obligations.ResponseDependsOnCrcAndBytesOnly := by
  intro wide wide' s s' t t' crc c c' addr addr' len len' hs hs' h h' hbytes
  rw [replies_crcUpdate hs h, replies_crcUpdate hs' h', hbytes]

/-! ### Streams -/

theorem exec_keeps_tableSound {i : Instr} {s t : State} (hsound : TableSound s) (h : exec i s = .next t) :
    TableSound t := by
  rcases exec_engine h with ⟨-, rfl⟩ | ⟨-, hbuilt⟩
  · exact hsound
  · intro _
    cases hflag : s.initFlag with
    | false => exact hbuilt.built hflag
    | true =>
      rw [hbuilt.kept hflag]
      exact hsound hflag

/-- A stream's last accumulator is the fold of the bytes of all its chunks. -/
theorem stream_crcUpdate {chunks : List (Bool × Addr × Len)} {s t : State} {crc c : Word} (hsound : TableSound s)
    (h : Stream chunks s crc c t) : c = crcUpdate crc (streamBytes s.dmem chunks) := by
  induction chunks generalizing s crc with
  | nil => exact h.1
  | cons chunk rest ih =>
    obtain ⟨wide, addr, len⟩ := chunk
    obtain ⟨c1, t1, hfirst, hrest⟩ := h
    have hc := ih (exec_keeps_tableSound hsound hfirst.1) hrest
    rw [(exec_hostSideKept hfirst.1).dmem, replies_crcUpdate hsound hfirst, ← crcUpdate_append] at hc
    exact hc

/-- Settles O36: the stream and the one update fold the same bytes. -/
theorem streamsCompose : Obligations.StreamsCompose := by
  intro chunks s t crc c addr len hsound hstream hrange ha hbytes
  obtain ⟨t', hexec, hresponded⟩ := exec_updateOp_responds false crc hsound hrange ha
  rw [hbytes, ← stream_crcUpdate hsound hstream] at hresponded
  exact ⟨t', hexec, _, hresponded.trace⟩

/-! ### The first operation builds -/

/-- Over a built table requests served in order end in working values or stuck, never in a fault. -/
theorem serveReads_ne_fault {s : State} (hb : TableBuilt s.table) (rs : List DmemRead) (w : Work) (f : Fault) :
    serveReads s rs w ≠ .error (.fault f) := by
  induction rs generalizing w with
  | nil => exact nofun
  | cons r rs ih =>
    rw [serveReads_cons]
    rcases serveRead_cases s w r with ⟨-, c, -, hr⟩ | ⟨-, hr⟩ | ⟨-, g, hg, -⟩
    · rw [hr]
      exact ih _
    · rw [hr]
      exact nofun
    · cases hg.symm.trans (foldRead_of_built hb w.crc r)

theorem finishUpdate_next_of_ne_fault (s : State) {r : Except Halt Work} (h : ∀ f, r ≠ .error (.fault f)) :
    ∃ t, finishUpdate s r = .next t := by
  cases r with
  | ok w => exact ⟨_, rfl⟩
  | error e =>
    cases e with
    | stuck x rs => exact ⟨_, rfl⟩
    | fault f => exact absurd rfl (h f)

/-- Over a sound table every operation answers a next state (60_exceptions R131). -/
theorem exec_answers_next {s : State} (hsound : TableSound s) (i : Instr) : ∃ t, exec i s = .next t := by
  rcases instr_cases i with rfl | ⟨wide, crc, addr, len, rfl⟩
  · exact ⟨_, exec_init s⟩
  · rcases Nat.lt_or_ge (2 ^ Config.aw) (addr.toNat + len.toNat) with hout | hrange
    · exact ⟨_, exec_updateOp_outOfRange wide crc s hout⟩
    · rw [exec_updateOp_inRange wide crc s hrange]
      exact finishUpdate_next_of_ne_fault _ (serveReads_ne_fault (ensureBuilt_built hsound) _ _)

/-- Settles O42: with the flag clear every operation answers a next state, and what it does to the engine's pair is
decided by whether it is accepted. -/
theorem firstOperationBuilds : Obligations.FirstOperationBuilds := by
  intro i s hclear
  have hsound : TableSound s := fun hset => nomatch hclear.symm.trans hset
  obtain ⟨t, ht⟩ := exec_answers_next hsound i
  rcases exec_engine ht with ⟨hn, rfl⟩ | ⟨ha, hbuilt⟩
  · exact ⟨fun ha => (nomatch hn.symm.trans ha), fun _ => ⟨_, ht, hclear, rfl⟩⟩
  · exact ⟨fun _ => ⟨t, ht, hbuilt.flag, hbuilt.built hclear⟩, fun hn => (nomatch hn.symm.trans ha)⟩

end Sys2Proof.Machine

/-!
### The statements of 42_updater_slice8

Each phase serves its list of requests (`phase1_eq`, `phase2_eq`, `byteLoop_eq`); where it ends is read off the list
once (`phase1_ok`, `phase2_ok`, `phase3_ok`), and the counts of the phases follow. A word fold is eight byte folds
(`wordFold_eq_crcUpdate`), so the two modes respond alike.
-/

namespace Sys2Proof.Machine

/-! ### One word fold, eight byte folds -/

theorem foldlM_fold1_of_built {t : Table} (h : TableBuilt t) (crc : Word) (bs : List Byte) :
    bs.foldlM (fold1 t) crc = .ok (crcUpdate crc bs) := by
  induction bs generalizing crc with
  | nil => rfl
  | cons b bs ih =>
    rw [List.foldlM_cons, fold1_of_built h]
    exact ih (byteFold crc b)

/-- The bytes of a word put together from eight are those eight. -/
theorem wordBytes_appendBytes (b7 b6 b5 b4 b3 b2 b1 b0 : Byte) :
    wordBytes 8 (b7 ++ b6 ++ b5 ++ b4 ++ b3 ++ b2 ++ b1 ++ b0) = [b0, b1, b2, b3, b4, b5, b6, b7] := by
  refine List.ext_getElem (by simp [wordBytes]) fun i _ hi => ?_
  simp only [wordBytes, List.getElem_map, List.getElem_range]
  exact (lane_eq _ ⟨i, hi⟩).trans (extractLsb'_appendBytes b7 b6 b5 b4 b3 b2 b1 b0 ⟨i, hi⟩)

/-- Settles O24: both sides have their values over a built table, and the bytes of the word are the eight. -/
theorem wordFoldIsEightByteFolds : Obligations.WordFoldIsEightByteFolds := by
  intro t ht crc b0 b1 b2 b3 b4 b5 b6 b7
  rw [fold8_of_built ht, foldlM_fold1_of_built ht, wordFold_eq_crcUpdate]
  exact congrArg (Except.ok ∘ crcUpdate crc) (wordBytes_appendBytes b7 b6 b5 b4 b3 b2 b1 b0)

/-! ### UPDATE8 responds, and as UPDATE1 does -/

/-- The requests of `UPDATE8` fold to what its three phases compute. -/
theorem foldl_readFold_update8Reads (m : Memory) (crc : Word) (addr len : Nat) :
    (update8Reads addr len).foldl (readFold m) crc = phasesUpdate m crc addr len := by
  simp only [update8Reads, phasesUpdate, crcUpdate, dmemBytes, dmemWords, List.foldl_append, List.foldl_map, readFold]

/-- Settles O29: the requests are served and folded phase by phase. -/
theorem update8Responds : Obligations.Update8Responds := by
  intro s crc addr len
  refine ⟨exec_updateOp_outOfRange true crc s, fun hrange hsound ha =>
    ⟨_, exec_updateOp_of_admitted true crc hsound hrange ha, ?_⟩⟩
  rw [← foldl_readFold_update8Reads]
  exact responded_ensureBuilt s _ _

/-- Settles O30: both modes fold the bytes of the range, and log their requests in the same state. -/
theorem modesAgree : Obligations.ModesAgree := by
  intro s crc addr len hsound hrange ha1 ha8
  have hexec1 := exec_updateOp_of_admitted false crc hsound hrange ha1
  have hexec8 := exec_updateOp_of_admitted true crc hsound hrange ha8
  rw [foldl_readFold_updateReads] at hexec1 hexec8
  exact ⟨_, _, _, ⟨hexec1, _, (responded_ensureBuilt ..).trace⟩, ⟨hexec8, _, (responded_ensureBuilt ..).trace⟩, rfl⟩

/-! ### Where each phase ends -/

theorem serveReads_consumed {s : State} {rs : List DmemRead} {w w' : Work} (h : serveReads s rs w = .ok w') :
    w'.consumed = w.consumed := by
  induction rs generalizing w with
  | nil => cases h; rfl
  | cons r rs ih =>
    rw [serveReads_cons] at h
    cases hr : serveRead s w r with
    | error x => rw [hr] at h; cases h
    | ok w1 =>
      rw [hr] at h
      have hrest := ih h
      obtain ⟨c, rfl⟩ := serveRead_ok hr
      exact hrest

theorem phase1_ok {s : State} {w w' : Work} (hcon : w.consumed = 0) (h : phase1 s w = .ok w') :
    w'.consumed = npro w.pos w.rem ∧ w'.pos = w.pos + npro w.pos w.rem ∧ w'.rem = w.rem - npro w.pos w.rem ∧
      w'.reads = w.reads ++ update1Reads w.pos (npro w.pos w.rem) := by
  rw [phase1_eq s hcon] at h
  cases hr : serveReads s (update1Reads w.pos (npro w.pos w.rem)) w with
  | error x => rw [hr] at h; cases h
  | ok v =>
    rw [hr] at h
    cases h
    obtain ⟨hpos, hrem, hreads⟩ := serveReads_ok hr
    rw [bytesOf_update1Reads] at hpos hrem
    exact ⟨by simp [countConsumed, serveReads_consumed hr, hcon], hpos, hrem, hreads⟩

theorem phase2_ok {s : State} {w w' : Work} (h : phase2 s w = .ok w') :
    w'.rem = w.rem % 8 ∧ w'.pos = w.pos + 8 * (w.rem / 8) ∧ w'.reads = w.reads ++ wordReads w.pos (w.rem / 8) := by
  rw [phase2_eq] at h
  obtain ⟨hpos, hrem, hreads⟩ := serveReads_ok h
  rw [bytesOf_wordReads] at hpos hrem
  exact ⟨by omega, hpos, hreads⟩

theorem phase3_ok {s : State} {w w' : Work} (h : phase3 s w = .ok w') :
    w'.rem = 0 ∧ w'.pos = w.pos + w.rem ∧ w'.reads = w.reads ++ update1Reads w.pos w.rem := by
  rw [phase3, byteLoop_eq] at h
  obtain ⟨hpos, hrem, hreads⟩ := serveReads_ok h
  rw [bytesOf_update1Reads] at hpos hrem
  exact ⟨by omega, hpos, hreads⟩

/-- The prologue is at most 7 bytes long: fewer than 8 bring any address to the next multiple of 8. -/
theorem npro_le_seven (pos rem : Nat) : npro pos rem ≤ 7 := by
  unfold npro
  omega

/-- After the prologue nothing is left, or the position is aligned. -/
theorem npro_reaches (pos rem : Nat) : rem - npro pos rem = 0 ∨ (pos + npro pos rem) % 8 = 0 := by
  unfold npro
  omega

/-- Settles O31, by where phase 1 ends. -/
theorem prologueReachesAlignment : Obligations.PrologueReachesAlignment := by
  intro s w w' hcon h
  obtain ⟨hconsumed, hpos, hrem, hreads⟩ := phase1_ok hcon h
  refine ⟨?_, hconsumed, hpos, hrem, hreads⟩
  rw [hpos, hrem]
  exact npro_reaches w.pos w.rem

/-- Settles O33, by where phases 2 and 3 end. -/
theorem bulkAndEpilogueConsume : Obligations.BulkAndEpilogueConsume := by
  refine fun s w w' => ⟨fun h => ?_, phase3_ok⟩
  obtain ⟨hrem, hpos, hreads⟩ := phase2_ok h
  exact ⟨by omega, hrem, hpos, by omega, hreads⟩

/-! ### The conjunct of phase 1 that never decides -/

/-- Two conditions that agree on what every turn keeps make the same loop. -/
theorem whileLoop_congr {cond cond' : Work → Bool} {body : Work → Except Halt Work} {P : Work → Prop}
    (agree : ∀ w, P w → cond w = cond' w) (keep : ∀ w w', P w → cond w = true → body w = .ok w' → P w') :
    ∀ (n : Nat) {w : Work}, P w → whileLoop cond body n w = whileLoop cond' body n w := by
  intro n
  induction n with
  | zero => intro w _; rfl
  | succ n ih =>
    intro w hw
    cases hc : cond w with
    | false => rw [whileLoop_stop hc, whileLoop_stop ((agree w hw).symm.trans hc)]
    | true =>
      rw [whileLoop_succ hc, whileLoop_succ ((agree w hw).symm.trans hc)]
      exact bind_congr_of_ok fun w' hb => ih (keep w w' hw hc hb)

/-- Settles O32: before alignment no more than `pos mod 8 - 1` bytes are consumed, so the conjunct holds wherever the
others do. -/
theorem consumedNeverDecides : Obligations.ConsumedNeverDecides := by
  intro s w hcon
  refine ⟨?_, fun w' h => ?_⟩
  · refine whileLoop_congr (P := fun w => w.consumed ≤ (w.pos + 7) % 8) (fun w hw => ?_)
      (fun w w' hw hc hb => ?_) w.rem (by omega)
    · have : w.consumed < 8 := by omega
      simp [this]
    · rw [prologueStep_eq] at hb
      obtain ⟨c, rfl⟩ := serveRead_ok hb
      simp only [Bool.and_eq_true, decide_eq_true_eq] at hc
      show w.consumed + 1 ≤ (w.pos + 1 + 7) % 8
      omega
  · obtain ⟨hconsumed, -⟩ := phase1_ok hcon h
    rw [hconsumed]
    exact npro_le_seven w.pos w.rem

/-! ### The counts of the phases -/

@[simp] theorem length_update1Reads (addr n : Nat) : (update1Reads addr n).length = n := by
  simp [update1Reads]

@[simp] theorem length_wordReads (addr n : Nat) : (wordReads addr n).length = n := by
  simp [wordReads]

/-- Settles O34: the requests of each phase, counted. -/
theorem phaseCounts : Obligations.PhaseCounts := by
  rintro s crc addr len w1 w2 w3 a n p b e rfl rfl hp hb he h1 h2 h3
  have hnpro : npro addr.toNat len.toNat = p := hp.symm
  obtain ⟨-, -, hrem1, hreads1⟩ := phase1_ok rfl h1
  obtain ⟨hrem2, -, hreads2⟩ := phase2_ok h2
  obtain ⟨hrem3, -, hreads3⟩ := phase3_ok h3
  simp only [startWork, hnpro, List.nil_append] at hrem1 hreads1
  rw [hrem1, ← he] at hrem2
  rw [hrem1, ← hb] at hreads2
  rw [hrem2] at hreads3
  simp only [hreads3, hreads2, hreads1, List.length_append, length_update1Reads, length_wordReads, true_and]
  refine ⟨hrem1, hrem2, hrem3, ?_, ?_, ?_, ?_⟩ <;> omega

/-! ### Short lengths -/

/-- Fewer than 8 bytes hold no word, wherever they stand. -/
theorem nbulk_of_short {addr len : Nat} (h : len < 8) : nbulk addr len = 0 := by
  unfold nbulk
  omega

theorem update8Reads_of_short {addr len : Nat} (h : len < 8) : ∀ r ∈ update8Reads addr len, r.width = .one := by
  rw [update8Reads_eq, nbulk_of_short h]
  simp [update1Reads, or_imp, forall_and]

theorem length_update8Reads_of_short {addr len : Nat} (h : len < 8) : (update8Reads addr len).length = len := by
  have hsum := phaseCounts_add addr len
  have hbulk : nbulk addr len = 0 := nbulk_of_short h
  rw [update8Reads_eq, hbulk]
  simp only [List.length_append, length_update1Reads, length_wordReads]
  omega

/-- Eight aligned bytes are one word. -/
theorem update8Reads_of_word {addr : Nat} (h : addr % 8 = 0) : update8Reads addr 8 = [⟨addr, .eight⟩] := by
  have hpro : npro addr 8 = 0 := npro_eq_zero (.inl h)
  simp [update8Reads, nbulk, nepi, hpro]

/-- The prologue takes at most 7 bytes, so 15 leave a word. -/
theorem update8Reads_of_long {addr len : Nat} (h : 15 ≤ len) : ∃ r ∈ update8Reads addr len, r.width = .eight := by
  have hbulk : 0 < nbulk addr len := by
    have := npro_le_seven addr len
    unfold nbulk
    omega
  refine ⟨⟨addr + npro addr len, .eight⟩, ?_, rfl⟩
  rw [update8Reads_eq, List.mem_append, List.mem_append]
  exact .inl (.inr (List.mem_map.mpr ⟨0, List.mem_range.mpr hbulk, rfl⟩))

/-- Settles O35: the update responds after its requests, which are counted by its length. -/
theorem shortLengthsReadNoWord : Obligations.ShortLengthsReadNoWord := by
  intro s crc addr len hsound hrange ha
  obtain ⟨t, hexec, hresponded⟩ := exec_updateOp_responds true crc hsound hrange ha
  refine ⟨_, t, update8Reads addr.toNat len.toNat, hexec, hresponded.trace, fun h => ?_,
    fun h => ⟨length_update8Reads_of_short h, update8Reads_of_short h⟩, fun h halign => ?_, update8Reads_of_long⟩
  · obtain rfl : len = 0 := BitVec.eq_of_toNat_eq h
    exact ⟨updateReads_zero true addr, rfl⟩
  · rw [h]
    exact update8Reads_of_word halign

end Sys2Proof.Machine

/-!
### The statements of 60_exceptions

An engine that is idle or stuck steps to itself, and a run from such a state stays there. A step executes an operation
or settles without one, so no step faults where no operation does (`exec_answers_next`). An update sees of its state the
data memory and the admission of reads only, so its response outlives every operation that keeps both.
-/

namespace Sys2Proof.Machine

/-! ### An engine that holds its state -/

theorem step_idle {s : State} (hi : s.inputs = []) : step s = .next s := by
  have hmove : takeMove s = .settled s := by cases hs : s.stalled <;> simp [takeMove, hs, hi]
  rw [step, hmove]

theorem step_stalled {s : State} {r : DmemRead} (hs : s.stalled = some r) : step s = .next s := by
  have hmove : takeMove s = .settled s := by simp only [takeMove, hs]
  rw [step, hmove]

/-- A run from a state that steps to itself stays there. -/
theorem run_of_step_self {M : Host.Core} {s : M.State} (h : M.step s = .next s) (k : Nat) : M.run k s = .next s := by
  induction k with
  | zero => rfl
  | succ k ih => rw [Host.Core.run, h]; exact ih

/-- Settles O7: with no move pending the next move settles the state itself. -/
theorem idleEngineHoldsItsState : Obligations.IdleEngineHoldsItsState := fun _ => step_idle

/-- Settles O8: a stuck state steps to itself. -/
theorem stuckEngineServesNothing : Obligations.StuckEngineServesNothing := fun _ _ k hs =>
  run_of_step_self (M := core) (step_stalled hs) k

/-! ### No operation and no step faults -/

/-- Over a sound table every step answers a next state: the operation it executes does, and nothing else it does can
fault. -/
theorem step_answers_next {s : State} (hsound : TableSound s) : ∃ t, step s = .next t := by
  rw [step]
  rcases takeMove_cases s with ⟨hm, -⟩ | ⟨w, rest, -, hm⟩ | ⟨rest, -, hm⟩ | ⟨a, b, rest, -, hm⟩
  · exact ⟨s, by rw [hm]⟩
  · rw [hm, takeCommand]
    cases decode w with
    | ok i => exact exec_answers_next (s := { s with inputs := rest }) hsound i
    | error why => exact ⟨_, rfl⟩
  · exact ⟨_, by rw [hm]⟩
  · exact ⟨_, by rw [hm]⟩

/-- Settles O48, for the operations and for the step. -/
theorem noOperationFaults : Obligations.NoOperationFaults := fun _ hsound =>
  ⟨exec_answers_next hsound, step_answers_next hsound⟩

/-! ### Streams in between -/

/-- What an update responds depends on the data memory and the admission of reads only: over sound tables it responds
the same in every state that agrees on both (70_reset_and_hazards R158). -/
theorem replies_of_same_memory {wide : Bool} {crc c : Word} {addr : Addr} {len : Len} {s t u : State}
    (hs : TableSound s) (ht : TableSound t) (hdmem : t.dmem = s.dmem) (hdenied : t.denied = s.denied)
    (h : Replies (updateOp wide crc addr len) s c u) : ∃ u', Replies (updateOp wide crc addr len) t c u' := by
  obtain ⟨hrange, hadmits, -⟩ := replies_updateOp hs h
  obtain ⟨u', hexec, hresponded⟩ := exec_updateOp_responds wide crc ht hrange (hdenied ▸ hadmits)
  rw [hdmem, ← replies_crcUpdate hs h] at hresponded
  exact ⟨u', hexec, _, hresponded.trace⟩

/-- Settles O49: the operation in between keeps the table sound, the data memory and the admission of reads. -/
theorem streamsDoNotDisturbEachOther : Obligations.StreamsDoNotDisturbEachOther := by
  intro wide i s t u crc c addr len hsound hi h
  have hhost := exec_hostSideKept hi
  exact replies_of_same_memory hsound (exec_keeps_tableSound hsound hi) hhost.dmem hhost.denied h

end Sys2Proof.Machine

/-!
### The statements of 70_reset_and_hazards

A reset is one step with a known result (`step_reset`). It keeps the data memory and the admission of reads, which are
all that an update sees, and what it takes from the engine the next update builds again.
-/

namespace Sys2Proof.Machine

/-! ### The reset move -/

theorem takeMove_reset {s : State} {rest : List HostInput} (hs : s.stalled = none) (hi : s.inputs = .reset :: rest) :
    takeMove s = .settled (hostReset { s with inputs := rest }) := by
  simp only [takeMove, hs, hi]

theorem step_reset {s : State} {rest : List HostInput} (hs : s.stalled = none) (hi : s.inputs = .reset :: rest) :
    step s = .next (hostReset { s with inputs := rest }) := by
  rw [step, takeMove_reset hs hi]

/-- Settles O9: no entry of the table that a reset leaves holds a value. -/
theorem resetMoveResetsTheEngine : Obligations.ResetMoveResetsTheEngine := fun _ _ hs hi =>
  ⟨_, step_reset hs hi, rfl, tableEntry_unbuilt, rfl, rfl, rfl, rfl, rfl, hs⟩

/-! ### The same update after a reset -/

/-- With the flag clear the invariant of 10_state R26 asks nothing of the table. -/
theorem hostReset_tableSound (s : State) : TableSound (hostReset s) := nofun

/-- Over a sound table an update that responds leaves the table built: it was accepted, so it ran `ensure_built`. -/
theorem Replies.tableBuilt {wide : Bool} {crc c : Word} {addr : Addr} {len : Len} {s t : State}
    (h : Replies (updateOp wide crc addr len) s c t) (hsound : TableSound s) : TableBuilt t.table := by
  obtain ⟨hrange, hadmits, -⟩ := replies_updateOp hsound h
  obtain ⟨t', hexec, hresponded⟩ := exec_updateOp_responds wide crc hsound hrange hadmits
  obtain rfl : t' = t := Host.Outcome.next.inj (hexec.symm.trans h.1)
  exact exec_keeps_tableSound hsound hexec hresponded.engine.flag

/-- Settles O50: the reset keeps the memory that the response depends on, and both updates leave a built table, of
which there is only one. -/
theorem responseSurvivesReset : Obligations.ResponseSurvivesReset := by
  intro wide s t u crc c addr len rest hsound hs hi hstep h
  obtain rfl : hostReset { s with inputs := rest } = t := Host.Outcome.next.inj ((step_reset hs hi).symm.trans hstep)
  have hsound' := hostReset_tableSound { s with inputs := rest }
  obtain ⟨u', h'⟩ := replies_of_same_memory hsound hsound' rfl rfl h
  exact ⟨u', h', (h'.tableBuilt hsound').unique (h.tableBuilt hsound)⟩

end Sys2Proof.Machine
